-- ==== Sys2Proof/Word.lean ====
section
/-!
DEFINITION. The types of the values that stand on the codec's ports (00_scope.md R4, R7; 10_state.md R22, R23).
-/

namespace Sys2Proof

/-- A byte of a frame (R7: an integer in [0, 255]). -/
abbrev Byte := BitVec 8

/-- The operation select word (R60): bit 8 is the kind, bits 7 to 0 the opcode. -/
abbrev Sel := BitVec 9

/-- An arbitration identifier, "a 32-bit unsigned integer" (R47). -/
abbrev ArbId := BitVec 32

/-- RotationDirection (R22, glossary). Which physical rotation each name is, no source says (N20). -/
inductive RotationDirection where
  | clockwise
  | counterClockwise
  deriving DecidableEq, Repr, Inhabited

/-- A reply as the operand of a PARSE (R77): `none` is `NONE` (`rx_present = 0`), `some bs` the delivered bytes in
address order (`rx_present = 1`, `rx_len = bs.length`). -/
abbrev Reply := Option (List Byte)

/-- A field of a frame: `width` bytes from byte `offset` on (R45, R63 to R71). -/
structure Field where
  offset : Nat
  width : Nat
  deriving DecidableEq, Repr

end Sys2Proof
end

