-- ==== Sys2Proof/Config.lean ====
section
/-!
DEFINITION. What is fixed before the first operation (00_scope.md R6, 10_state.md R27, 70_reset_and_hazards.md R241), and
the one value the spec leaves open as a free draw (R242). The spec's own values of the parameters stand in
Sys2Proof/Machine/Literals.lean.
-/

namespace Sys2Proof

/-- `ROUND_MODE` (R102). -/
inductive RoundMode where
  | halfEven
  | halfAway
  | towardZero
  | floor
  deriving DecidableEq, Repr

/-- `WIDTH_REDUCTION` (R103, R104). -/
inductive WidthReduction where
  | wrap
  | saturate
  deriving DecidableEq, Repr

/-- The five static configuration parameters (R6). -/
structure Config where
  /-- `ROUND_MODE` -/
  roundMode : RoundMode
  /-- `WIDTH_REDUCTION` -/
  widthReduction : WidthReduction
  /-- `POWER_ON_WHEN_ZERO` -/
  powerOnWhenZero : Bool
  /-- `REQUIRE_FULL_FRAME` -/
  requireFullFrame : Bool
  /-- `CHECK_ECHO` -/
  checkEcho : Bool
  deriving DecidableEq, Repr

/-- StagedParameters {angle, direction, speed}: the host's, not the block's (R30). -/
structure Staged where
  angle : Rat
  dir : RotationDirection
  speed : Int
  deriving DecidableEq, Repr, Inhabited

/-- `STAGED_INIT` (R242, D29, I9): what the host stages before the first `setParameters`. A FREE VALUE: no body, so no
proof can see it. Assumption log 10. -/
opaque Config.stagedInit : Staged

end Sys2Proof
end

