-- ==== Sys2Proof/Machine/Literals.lean ====
section
/-!
DEFINITION. The numeric literals of the spec in one place, so that a correction changes one value
(93_implementation_defined.md I12), and the spec's own values of the configuration parameters (00_scope.md R6).
-/

namespace Sys2Proof.Machine

/-- The configuration this spec decides (R6: D6, D7, D13, D11, D12). -/
def specConfig : Config where
  roundMode := .halfEven
  widthReduction := .wrap
  powerOnWhenZero := true
  requireFullFrame := false
  checkEcho := false

/-! The nine opcodes (R2, R61). -/

/-- Absolute position. -/
@[simp] def opAbsolute : Byte := 0xA6
/-- Set current position as offset. -/
@[simp] def opOffset : Byte := 0x95
/-- Incremental position. -/
@[simp] def opIncrement : Byte := 0xA8
/-- Read multi-turn angle. -/
@[simp] def opMultiTurn : Byte := 0x92
/-- Read single-turn angle. -/
@[simp] def opSingleTurn : Byte := 0x94
/-- Status 1. -/
@[simp] def opStatus1 : Byte := 0x9A
/-- Status 2. -/
@[simp] def opStatus2 : Byte := 0x9C
/-- Power-off. -/
@[simp] def opPowerOff : Byte := 0x80
/-- Power-run. -/
@[simp] def opPowerRun : Byte := 0x88

/-! Frame geometry (R4, R45, R63 to R71). -/

/-- Every frame has 8 bytes, addresses 0 to 7 (R4, R40). -/
@[simp] def frameLength : Nat := 8
/-- Byte 0 of every frame: the opcode, or its echo (R41, R68 to R71). -/
@[simp] def fieldOpcode : Field := ⟨0, 1⟩
/-- CMD-POS `dirb` (R63), and the reserved byte of CMD-INC (R65). -/
@[simp] def fieldDirection : Field := ⟨1, 1⟩
/-- CMD-POS and CMD-INC `spd` (R63, R65). -/
@[simp] def fieldCommandSpeed : Field := ⟨2, 2⟩
/-- CMD-POS and CMD-OFS `ang`, CMD-INC `inc` (R63 to R65). -/
@[simp] def fieldCommandAngle : Field := ⟨4, 4⟩
/-- RSP-MT `mt` (R68). -/
@[simp] def fieldMultiTurn : Field := ⟨1, 7⟩
/-- RSP-ST `st` (R69). -/
@[simp] def fieldSingleTurn : Field := ⟨4, 4⟩
/-- RSP-S1 `temp` (R70). -/
@[simp] def fieldTemperature : Field := ⟨1, 1⟩
/-- RSP-S1 `volt` (R70). -/
@[simp] def fieldVoltage : Field := ⟨2, 2⟩
/-- RSP-S1 `pwr` (R70). -/
@[simp] def fieldPower : Field := ⟨6, 1⟩
/-- RSP-S2 `spd` (R71). -/
@[simp] def fieldReplySpeed : Field := ⟨4, 2⟩

/-! Required reply lengths when `REQUIRE_FULL_FRAME` is false (R141, D11). -/

/-- REQ(0x92). -/
@[simp] def requiredMultiTurn : Nat := 8
/-- REQ(0x94). -/
@[simp] def requiredSingleTurn : Nat := 8
/-- REQ(0x9A). -/
@[simp] def requiredStatus1 : Nat := 7
/-- REQ(0x9C). -/
@[simp] def requiredStatus2 : Nat := 6

/-! Scales and the identifier base (R5, R47). -/

/-- Counts per degree (R5: 0.01 degree per LSB). -/
@[simp] def angleScale : Rat := 100
/-- Counts per volt (R5: 0.01 V per LSB). -/
@[simp] def voltageScale : Rat := 100
/-- The base of the arbitration identifiers (R47). -/
@[simp] def arbIdBase : Nat := 0x140

end Sys2Proof.Machine
end

