-- ==== Sys2Proof/Machine/State.lean ====
section
/-!
DEFINITION. The state of the machine as plain data, the reasons a step can stop, and the state after reset
(10_state.md R20 to R31, 70_reset_and_hazards.md R240, R249). The block itself keeps nothing between operations (R20): what
stands here is its configuration, the host's list of presentations (its input ports), its output ports, and the run's
observation.
-/

namespace Sys2Proof.Machine

/-- The bytes of one frame buffer (R28, R40): (address, byte) pairs, addresses rising, no entry 0x00 (what an unlisted
address reads as is `Memory.unlisted`; `Memory.wf` says the form; both in Ops.lean). Assumption log 6. -/
abbrev Memory := List Host.Cell

/-- The input ports (R22): one presentation of the host. -/
structure Operation where
  /-- `sel`: operation select -/
  sel : Sel
  /-- `angle`: degrees, an exact rational -/
  angle : Rat
  /-- `dir` -/
  dir : RotationDirection
  /-- `speed`: an integer number of dps -/
  speed : Int
  /-- `rx_present`: the transport returned a reply -/
  rxPresent : Bool
  /-- `rx_len`: number of reply bytes delivered, in [0, 8] -/
  rxLen : Fin 9
  /-- `rx[0..7]`: the reply buffer -/
  rx : Memory
  deriving DecidableEq, Repr

/-- `status` (R200). -/
inductive Status where
  | ok
  | malformed
  | refused
  deriving DecidableEq, Repr

/-- `reason` (R202). -/
inductive Reason where
  | absent
  | short
  | echo
  deriving DecidableEq, Repr

/-- The output ports by name (R23). -/
inductive OutPort where
  | status | reason | tx | mtCnt | mtDeg | stCnt | stDeg | tempC | voltCnt | voltV | powerRaw | powerOn | speedDps | ack
  deriving DecidableEq, Repr

/-- The output ports (R23). `none` is the spec's "holds no value" (R25), never a want of a reset value. -/
structure Outputs where
  /-- `status` -/
  status : Option Status := none
  /-- `reason` -/
  reason : Option Reason := none
  /-- `tx[0..7]`, the command frame -/
  tx : Option Memory := none
  /-- `mt_cnt`, 0.01 degree per LSB -/
  mtCnt : Option Int := none
  /-- `mt_deg`, degrees -/
  mtDeg : Option Rat := none
  /-- `st_cnt`, 0.01 degree per LSB -/
  stCnt : Option Nat := none
  /-- `st_deg`, degrees -/
  stDeg : Option Rat := none
  /-- `temp_c`, degrees C -/
  tempC : Option Nat := none
  /-- `volt_cnt`, 0.01 V per LSB -/
  voltCnt : Option Int := none
  /-- `volt_v`, volts -/
  voltV : Option Rat := none
  /-- `power_raw` -/
  powerRaw : Option Byte := none
  /-- `power_on` -/
  powerOn : Option Bool := none
  /-- `speed_dps` -/
  speedDps : Option Int := none
  /-- `ack` -/
  ack : Option Bool := none
  deriving DecidableEq, Repr

/-- Whether the run still has a meaning (R249: none after a refused `sel`). -/
inductive Run where
  | meaningful
  | withoutMeaning
  deriving DecidableEq, Repr

/-- Reasons a run stops with a fault. -/
inductive Fault where
  /-- Raised by `fetch` when the host's list is exhausted: "The run ends when the list is exhausted" (R249). A stuck state.
  Safe: nothing is claimed past the end. Assumption log 13. -/
  | runEnded
  /-- Raised by `memRead` on bytes the reply does not deliver, where MemRead is not defined (R43). Safe. No operation meets
  it: the length check comes first (R141). Assumption log 8. -/
  | readBeyondReply
  /-- Raised by `memWrite` on an address outside 0 to 7, which the frame does not have (R40). Safe. No operation meets it:
  every field lies inside the frame (R44). Assumption log 8. -/
  | writeOutsideFrame
  /-- Raised by `readPort` on an output port that holds no value (R25: "a model must treat reading it as a fault"). Safe.
  Assumption log 7. -/
  | noValue (port : OutPort)
  deriving DecidableEq, Repr

/-- Reasons a step is refused. -/
inductive Refusal where
  /-- Raised only by an arm of `exec` whose instruction has no meaning yet; no arm is one now. Safe. -/
  | notModelled (mnemonic : String)
  /-- Raised by `fetch` for an operation presented after a refused one: the run "has no meaning after that operation"
  (R249, P4). Safe. Assumption log 5. -/
  | runHasNoMeaning
  deriving DecidableEq, Repr

/-- The machine. -/
structure State where
  /-- The static configuration (R6, R27): no operation changes it. -/
  cfg : Config
  /-- The host's operations not yet performed, the current one first (R24, R249); the head stands on the input ports (R22). -/
  pending : List Operation
  /-- The index of the current operation in the host's list (R24). -/
  index : Nat
  /-- The output ports (R23) as the latest operation left them. -/
  out : Outputs
  /-- The observation so far: "the list of each operation's outputs ... in order" (R249). -/
  trace : List Outputs
  /-- Whether the run still has a meaning (R249). -/
  run : Run
  deriving DecidableEq, Repr

/-- Before the first operation, under a configuration fixed beforehand (R241): nothing presented, and "every output port
holds no value" (R31). -/
def State.resetWith (cfg : Config) : State where
  cfg := cfg
  pending := []
  index := 0
  out := {}
  trace := []
  run := .meaningful

/-- The machine right after reset, under the spec's configuration (R6, R31, R240). Assumption log 1, 4, 9. -/
def State.reset : State := State.resetWith specConfig

end Sys2Proof.Machine
end

