-- ==== Sys2Proof/Machine/Ops.lean ====
section
/-!
DEFINITION. The named operations over the frame buffers, the ports and the run: byte access, MemRead and MemWrite
(20_memory.md R43, R44), the shapes of an operation's outputs (10_state.md R23, R25), and how an operation ends
(10_state.md R24, 60_exceptions.md R200 to R204, 70_reset_and_hazards.md R240, R249).
-/

namespace Sys2Proof.Machine

/-! ### Frame memory -/

/-- What an unlisted address of a frame buffer reads as: 0x00, to which every BUILD sets tx (R44). Assumption log 6. -/
def Memory.unlisted : Byte := 0x00

/-- The byte at address `a`. -/
def Memory.read : Memory → Nat → Byte
  | [], _ => Memory.unlisted
  | (c, v) :: m, a => if a = c then v else Memory.read m a

/-- `m` without an entry at `a`. -/
def Memory.clear (m : Memory) (a : Nat) : Memory :=
  m.filter fun cell => cell.1 != a

/-- Put an entry in its place by address. -/
def Memory.place : Memory → Nat → Byte → Memory
  | [], a, b => [(a, b)]
  | (c, v) :: m, a, b => if a < c then (a, b) :: (c, v) :: m else (c, v) :: Memory.place m a b

/-- Write one byte, keeping the canonical form: the value an unlisted address reads as removes the entry. -/
def Memory.write (m : Memory) (a : Nat) (b : Byte) : Memory :=
  if b = Memory.unlisted then Memory.clear m a else Memory.place (Memory.clear m a) a b

/-- Addresses strictly rising, all from `lo` on and inside the frame, and no entry that an unlisted address would read as. -/
def Memory.wfFrom : Nat → Memory → Bool
  | _, [] => true
  | lo, (c, v) :: m =>
    decide (lo ≤ c) && decide (c < frameLength) && decide (v ≠ Memory.unlisted) && Memory.wfFrom (c + 1) m

/-- The canonical form of a frame buffer's contents. -/
def Memory.wf (m : Memory) : Bool := Memory.wfFrom 0 m

/-- `F[0], ..., F[n-1]` (R9). -/
def Memory.prefixBytes (m : Memory) (n : Nat) : List Byte := (List.range n).map (Memory.read m)

/-- The whole frame `F[0], ..., F[7]` (R9). -/
def Memory.bytes (m : Memory) : List Byte := Memory.prefixBytes m frameLength

/-- The buffer that holds the bytes `bs` from address `a` on. -/
def Memory.ofBytesFrom : Nat → List Byte → Memory
  | _, [] => []
  | a, b :: bs =>
    if b = Memory.unlisted then Memory.ofBytesFrom (a + 1) bs else (a, b) :: Memory.ofBytesFrom (a + 1) bs

/-- The buffer that holds the bytes `bs` from address 0 on. -/
def Memory.ofBytes (bs : List Byte) : Memory := Memory.ofBytesFrom 0 bs

/-! ### Multi-byte values, little-endian (R41) -/

/-- The sum of `bs[i] * 256^i` (R43). -/
def leValue : List Byte → Nat
  | [] => 0
  | b :: bs => b.toNat + 256 * leValue bs

/-- `bits(v)[8i+7:8i]` as a byte (R7, R44). -/
def byteAt (v i : Nat) : Byte := BitVec.ofNat 8 (v / 256 ^ i)

/-- MemRead of a field of the delivered bytes (R43); a fault where it is not defined. -/
def memRead (bytes : List Byte) (f : Field) : Except Fault Nat :=
  if f.offset + f.width ≤ bytes.length then .ok (leValue ((bytes.drop f.offset).take f.width))
  else .error .readBeyondReply

/-- MemWrite of `v` into a field of the frame (R44); a fault at an address the frame does not have (R40). -/
def memWrite (m : Memory) (f : Field) (v : Nat) : Except Fault Memory :=
  if f.offset + f.width ≤ frameLength then
    .ok ((List.range f.width).foldl (fun m i => Memory.write m (f.offset + i) (byteAt v i)) m)
  else .error .writeOutsideFrame

/-- The frame read as the 64-bit word `W` (R9). -/
def frameWord (m : Memory) : Nat := leValue (Memory.bytes m)

/-! ### Arbitration identifier -/

/-- `arb_id(m) = wrap_32(0x140 + m)` (R47). Assumption log 14. -/
def arbId (motor : Nat) : ArbId := BitVec.ofNat 32 (arbIdBase + motor)

/-! ### What an operation writes on the output ports (R23); every port not named holds no value (R25) -/

/-- No port holds a value (R31). -/
def Outputs.empty : Outputs := {}

/-- REFUSED: `status` and nothing else (R204). -/
def Outputs.refused : Outputs := { status := some .refused }

/-- `raise MalformedResponse(reason)` (R8, R202): `status` and `reason`. -/
def Outputs.malformed (r : Reason) : Outputs := { status := some .malformed, reason := some r }

/-- A BUILD (R100): `status` and the frame. -/
def Outputs.built (frame : Memory) : Outputs := { status := some .ok, tx := some frame }

/-- PARSE.92 (R150): the count and `count / 100`. -/
def Outputs.multiTurn (count : Int) : Outputs :=
  { status := some .ok, mtCnt := some count, mtDeg := some (count / angleScale) }

/-- PARSE.94 (R151). -/
def Outputs.singleTurn (count : Nat) : Outputs :=
  { status := some .ok, stCnt := some count, stDeg := some (count / angleScale) }

/-- PARSE.9A (R152). -/
def Outputs.status1 (temp : Nat) (volt : Int) (power : Byte) (on : Bool) : Outputs :=
  { status := some .ok, tempC := some temp, voltCnt := some volt, voltV := some (volt / voltageScale),
    powerRaw := some power, powerOn := some on }

/-- PARSE.9C (R153). -/
def Outputs.status2 (speed : Int) : Outputs := { status := some .ok, speedDps := some speed }

/-- PARSE.95 (R154). -/
def Outputs.presence (ack : Bool) : Outputs := { status := some .ok, ack := some ack }

/-- Reading an output port: a fault where it holds no value (R25, I11). -/
def readPort {α : Type} (port : OutPort) : Option α → Except Fault α
  | some v => .ok v
  | none => .error (.noValue port)

/-! ### The run -/

/-- The host presents further operations, in its order (R24). -/
def State.present (s : State) (ops : List Operation) : State := { s with pending := s.pending ++ ops }

/-- An operation ends with outputs `o`: they stand on the ports, the index advances by exactly one (R24), the observation
grows (R249), the presentation is over. Nothing else changes. -/
def State.finish (s : State) (o : Outputs) : State :=
  { s with pending := s.pending.tail, index := s.index + 1, out := o, trace := s.trace ++ [o] }

/-- An operation ends with its outputs, or the step faults. -/
def State.complete (s : State) : Except Fault Outputs → Host.Outcome State Fault Refusal
  | .ok o => .next (s.finish o)
  | .error f => .fault f

/-- The operation whose `sel` names none: `status <- REFUSED` and nothing else (R204), and no meaning for the run after it
(R249). Assumption log 5. -/
def State.refuse (s : State) : State := { s.finish Outputs.refused with run := .withoutMeaning }

/-- Reset (R240): the block keeps nothing, so only the ports hold no value afterwards (R31). Assumption log 9. -/
def State.afterReset (s : State) : State := { s with out := Outputs.empty }

/-- What the next step finds on the input ports: an operation, or why there is none to perform (R249). -/
inductive Fetched where
  | operation (o : Operation)
  | stopped (f : Fault)
  | refused (r : Refusal)
  deriving DecidableEq, Repr

/-- The next operation of the host's list (R24, R249). Assumption log 5 and 13. -/
def fetch (s : State) : Fetched :=
  match s.pending with
  | [] => .stopped .runEnded
  | o :: _ =>
    match s.run with
    | .meaningful => .operation o
    | .withoutMeaning => .refused .runHasNoMeaning

/-- Idle input ports: every operand port zero, no reply (used where a port's value is ignored, R22). Assumption log 12. -/
def Operation.idle (sel : Sel) : Operation where
  sel := sel
  angle := 0
  dir := .clockwise
  speed := 0
  rxPresent := false
  rxLen := 0
  rx := []

/-- The delivered reply (R22, R77): `NONE` when `rx_present = 0`, else `rx[0 .. rx_len-1]`. Bytes at index `>= rx_len` are
not read. Assumption log 15. -/
def Operation.reply (o : Operation) : Reply :=
  if o.rxPresent then some (Memory.prefixBytes o.rx o.rxLen.val) else none

end Sys2Proof.Machine
end

