-- ==== Sys2Proof/Syntax.lean ====
section
/-!
DEFINITION. The operations of the codec with their operands, one constructor per row of spec/opcode_table.json, in the
table's order (30_encoding.md R61, R77).
-/

namespace Sys2Proof

/-- An operation as it is written (R77): a BUILD with the operands its rule names, a PARSE with its reply. -/
inductive Instr where
  /-- BUILD.A6, absolute position (R110) -/
  | buildA6 (angle : Rat) (dir : RotationDirection) (speed : Int)
  /-- BUILD.95, set current position as offset (R111) -/
  | build95 (angle : Rat)
  /-- BUILD.A8, incremental position (R112) -/
  | buildA8 (angle : Rat) (dir : RotationDirection) (speed : Int)
  /-- BUILD.92, read multi-turn angle (R113) -/
  | build92
  /-- BUILD.94, read single-turn angle (R114) -/
  | build94
  /-- BUILD.9A, status-1 request (R115) -/
  | build9A
  /-- BUILD.9C, status-2 request (R116) -/
  | build9C
  /-- BUILD.80, power-off (R117) -/
  | build80
  /-- BUILD.88, power-run (R118) -/
  | build88
  /-- PARSE.92, multi-turn angle reply (R150) -/
  | parse92 (reply : Reply)
  /-- PARSE.94, single-turn angle reply (R151) -/
  | parse94 (reply : Reply)
  /-- PARSE.9A, status-1 reply (R152) -/
  | parse9A (reply : Reply)
  /-- PARSE.9C, status-2 reply (R153) -/
  | parse9C (reply : Reply)
  /-- PARSE.95, set-zero-offset reply presence (R154) -/
  | parse95 (reply : Reply)
  deriving DecidableEq, Repr

end Sys2Proof
end

