-- ==== Sys2Proof/WellFormed.lean ====
section
/-!
DEFINITION. When a written operation is well formed: a reply is `NONE` or a list of at most 8 bytes
(30_encoding.md R67, R77; 10_state.md R22).
-/

namespace Sys2Proof

/-- `rx_len` is in [0, 8] (R22). -/
def Reply.wf : Reply → Bool
  | none => true
  | some bytes => decide (bytes.length ≤ 8)

/-- Every BUILD is well formed whatever its operands ("out-of-range values still encode", R106); a PARSE is when its
reply is. -/
def Instr.wf : Instr → Bool
  | .buildA6 _ _ _ => true
  | .build95 _ => true
  | .buildA8 _ _ _ => true
  | .build92 => true
  | .build94 => true
  | .build9A => true
  | .build9C => true
  | .build80 => true
  | .build88 => true
  | .parse92 reply => Reply.wf reply
  | .parse94 reply => Reply.wf reply
  | .parse9A reply => Reply.wf reply
  | .parse9C reply => Reply.wf reply
  | .parse95 reply => Reply.wf reply

end Sys2Proof
end

