-- ==== Sys2Proof/Decode.lean ====
section
/-!
DEFINITION. Decoding a presentation into an operation with its operands, the encoder, and the table of written names
(30_encoding.md R60, R61, R75, R77; 10_state.md R22).
-/

namespace Sys2Proof

open Machine

/-- Why `sel` names no operation (R75). -/
inductive Reject where
  /-- a BUILD of an opcode outside the nine -/
  | noBuilder (opcode : Byte)
  /-- a PARSE of an opcode outside {0x92, 0x94, 0x9A, 0x9C, 0x95} -/
  | noParser (opcode : Byte)
  deriving DecidableEq, Repr

/-- `sel[8]` (R60): true selects the parser. -/
def selIsParse (sel : Sel) : Bool := sel.getLsbD 8

/-- `sel[7:0]` (R60). -/
def selOpcode (sel : Sel) : Byte := sel.extractLsb' 0 8

/-- The select word of a kind and an opcode (R60). -/
def selWord (isParse : Bool) (opcode : Byte) : Sel := (BitVec.ofBool isParse ++ opcode : BitVec (1 + 8))

/-- A BUILD with the operands its rule names (R61, R110 to R118). -/
def decodeBuild (opcode : Byte) (o : Operation) : Except Reject Instr :=
  if opcode = opAbsolute then .ok (.buildA6 o.angle o.dir o.speed)
  else if opcode = opOffset then .ok (.build95 o.angle)
  else if opcode = opIncrement then .ok (.buildA8 o.angle o.dir o.speed)
  else if opcode = opMultiTurn then .ok .build92
  else if opcode = opSingleTurn then .ok .build94
  else if opcode = opStatus1 then .ok .build9A
  else if opcode = opStatus2 then .ok .build9C
  else if opcode = opPowerOff then .ok .build80
  else if opcode = opPowerRun then .ok .build88
  else .error (.noBuilder opcode)

/-- A PARSE with its reply (R61, R150 to R154). -/
def decodeParse (opcode : Byte) (reply : Reply) : Except Reject Instr :=
  if opcode = opMultiTurn then .ok (.parse92 reply)
  else if opcode = opSingleTurn then .ok (.parse94 reply)
  else if opcode = opStatus1 then .ok (.parse9A reply)
  else if opcode = opStatus2 then .ok (.parse9C reply)
  else if opcode = opOffset then .ok (.parse95 reply)
  else .error (.noParser opcode)

/-- The operation a presentation selects, with the operands its rule names; total (R60, R61, R75). -/
def decode (o : Operation) : Except Reject Instr :=
  if selIsParse o.sel then decodeParse (selOpcode o.sel) o.reply else decodeBuild (selOpcode o.sel) o

/-- The opcode of an operation: for a PARSE the command whose reply it parses (R60, R140). -/
def Instr.opcode : Instr → Byte
  | .buildA6 _ _ _ => opAbsolute
  | .build95 _ => opOffset
  | .buildA8 _ _ _ => opIncrement
  | .build92 => opMultiTurn
  | .build94 => opSingleTurn
  | .build9A => opStatus1
  | .build9C => opStatus2
  | .build80 => opPowerOff
  | .build88 => opPowerRun
  | .parse92 _ => opMultiTurn
  | .parse94 _ => opSingleTurn
  | .parse9A _ => opStatus1
  | .parse9C _ => opStatus2
  | .parse95 _ => opOffset

/-- Whether an operation is a PARSE (R60). -/
def Instr.isParse : Instr → Bool
  | .buildA6 _ _ _ => false
  | .build95 _ => false
  | .buildA8 _ _ _ => false
  | .build92 => false
  | .build94 => false
  | .build9A => false
  | .build9C => false
  | .build80 => false
  | .build88 => false
  | .parse92 _ => true
  | .parse94 _ => true
  | .parse9A _ => true
  | .parse9C _ => true
  | .parse95 _ => true

/-- The encoding of a written operation is its `sel` value (R77). -/
def Instr.sel (i : Instr) : Sel := selWord i.isParse i.opcode

/-- A reply on the input ports (R22, R77): `rx_present`, `rx_len` and the delivered bytes. -/
def presentReply (sel : Sel) : Reply → Operation
  | none => Operation.idle sel
  | some bytes =>
    { Operation.idle sel with rxPresent := true, rxLen := Fin.ofNat 9 bytes.length, rx := Memory.ofBytes bytes }

/-- The presentation of a written operation: its `sel` (R61, R77) and its operands on their ports (R22), every other port
idle. Assumption log 12. -/
def encode : Instr → Operation
  | .buildA6 angle dir speed =>
    { Operation.idle (selWord false opAbsolute) with angle := angle, dir := dir, speed := speed }
  | .build95 angle => { Operation.idle (selWord false opOffset) with angle := angle }
  | .buildA8 angle dir speed =>
    { Operation.idle (selWord false opIncrement) with angle := angle, dir := dir, speed := speed }
  | .build92 => Operation.idle (selWord false opMultiTurn)
  | .build94 => Operation.idle (selWord false opSingleTurn)
  | .build9A => Operation.idle (selWord false opStatus1)
  | .build9C => Operation.idle (selWord false opStatus2)
  | .build80 => Operation.idle (selWord false opPowerOff)
  | .build88 => Operation.idle (selWord false opPowerRun)
  | .parse92 reply => presentReply (selWord true opMultiTurn) reply
  | .parse94 reply => presentReply (selWord true opSingleTurn) reply
  | .parse9A reply => presentReply (selWord true opStatus1) reply
  | .parse9C reply => presentReply (selWord true opStatus2) reply
  | .parse95 reply => presentReply (selWord true opOffset) reply

/-- The operation the decoder reads from a select word alone, every operand port zero (an operation is one 9-bit word,
R76; a number that is no 9-bit word selects none). Assumption log 2. -/
def decodeTableWord (_nbits w : Nat) : Option Instr :=
  if w < 512 then
    match decode (Operation.idle (BitVec.ofNat 9 w)) with
    | .ok i => some i
    | .error _ => none
  else none

/-- The written names (R61) and the second names of the nine BUILD operations (R77), each with its `sel`. -/
def assemblerNames : List (String × Sel) :=
  [ ("BUILD.A6", 0x0A6), ("BUILD.95", 0x095), ("BUILD.A8", 0x0A8), ("BUILD.92", 0x092), ("BUILD.94", 0x094),
    ("BUILD.9A", 0x09A), ("BUILD.9C", 0x09C), ("BUILD.80", 0x080), ("BUILD.88", 0x088) ] ++
  [ ("PARSE.92", 0x192), ("PARSE.94", 0x194), ("PARSE.9A", 0x19A), ("PARSE.9C", 0x19C), ("PARSE.95", 0x195) ] ++
  [ ("ABS", 0x0A6), ("ZERO", 0x095), ("INC", 0x0A8), ("RDMT", 0x092), ("RDST", 0x094), ("RDS1", 0x09A),
    ("RDS2", 0x09C), ("OFF", 0x080), ("RUN", 0x088) ]

/-- The select word a written name stands for (R77). -/
def selOfName (name : String) : Option Sel := (assemblerNames.find? fun row => row.1 == name).map (·.2)

end Sys2Proof
end

