-- ==== Sys2Proof/Machine/Operands.lean ====
section
/-!
DEFINITION. How operands reach their fields and fields their outputs: extension, rounding, scaling and width reduction
(00_scope.md R8, 30_encoding.md R73, 40_frame_builder.md R101 to R105, 41_response_parser.md R143).
-/

namespace Sys2Proof.Machine

/-- `sext_N` (R8): the signed reading of an N-bit pattern. -/
def sext (n v : Nat) : Int := if v < 2 ^ (n - 1) then (v : Int) else (v : Int) - 2 ^ n

/-- `wrap_N` (R8): the low N bits of the two's-complement representation. -/
def wrap (n : Nat) (v : Int) : Nat := (v % 2 ^ n).toNat

/-- `ROUND` (R102). Assumption log 3. -/
def roundTo : RoundMode → Rat → Int
  | .halfEven, x =>
    let below := x.floor
    let rest := x - below
    if rest < 1 / 2 then below
    else if 1 / 2 < rest then below + 1
    else if below % 2 = 0 then below else below + 1
  | .halfAway, x => if 0 ≤ x then (x + 1 / 2).floor else -(-x + 1 / 2).floor
  | .towardZero, x => if 0 ≤ x then x.floor else -(-x).floor
  | .floor, x => x.floor

/-- `SCALE(q) = ROUND(q * 100)` (R101): exact, then rounded. -/
def scale (cfg : Config) (q : Rat) : Int := roundTo cfg.roundMode (q * angleScale)

/-- `REDUCE_S(N, v)` (R103). -/
def reduceS (cfg : Config) (n : Nat) (v : Int) : Nat :=
  match cfg.widthReduction with
  | .wrap => wrap n v
  | .saturate => wrap n (min (max v (-2 ^ (n - 1))) (2 ^ (n - 1) - 1))

/-- `REDUCE_U(N, v)` (R104). -/
def reduceU (cfg : Config) (n : Nat) (v : Int) : Nat :=
  match cfg.widthReduction with
  | .wrap => wrap n v
  | .saturate => (min (max v 0) (2 ^ n - 1)).toNat

/-- The speed field (R105): 1 dps per LSB. -/
def speedBits (cfg : Config) (speed : Int) : Nat := reduceU cfg (8 * fieldCommandSpeed.width) speed

/-- The angle or increment field (R110 to R112): the count in two's complement. -/
def countBits (cfg : Config) (count : Int) : Nat := reduceS cfg (8 * fieldCommandAngle.width) count

/-- `zext_8(dir)` (R63, R73): 0x00 Clockwise, 0x01 CounterClockwise. -/
def directionBits : RotationDirection → Nat
  | .clockwise => 0
  | .counterClockwise => 1

/-- The increment's sign (R112): flipped when the direction is CounterClockwise. -/
def signedIncrement : RotationDirection → Int → Int
  | .clockwise, m => m
  | .counterClockwise, m => -m

/-- A signed field of a reply (R143): the sign is taken from the field's own most significant byte. -/
def signedField (bytes : List Byte) (f : Field) : Except Fault Int := do
  let raw ← memRead bytes f
  .ok (sext (8 * f.width) raw)

end Sys2Proof.Machine
end

