-- ==== Sys2Proof/Machine/Builder.lean ====
section
/-!
DEFINITION. The command frame builder: the nine BUILD operations (40_frame_builder.md R100 to R118).
-/

namespace Sys2Proof.Machine

/-- A value for one field of a command frame. -/
structure FieldValue where
  field : Field
  value : Nat
  deriving DecidableEq, Repr

/-- Write fields one after another (R100). -/
def writeFields : Memory → List FieldValue → Except Fault Memory
  | m, [] => .ok m
  | m, f :: fs => do
    let m' ← memWrite m f.field f.value
    writeFields m' fs

/-- What every BUILD does (R100): blank the frame, write the opcode, write the opcode's fields, `status <- OK`. -/
def buildOutputs (opcode : Byte) (fields : List FieldValue) : Except Fault Outputs := do
  let frame ← writeFields [] (⟨fieldOpcode, opcode.toNat⟩ :: fields)
  .ok (Outputs.built frame)

/-! ### Integer-domain packers -/

/-- `PACK_POS(d, s, c)` (R110). -/
def packPos (cfg : Config) (dir : RotationDirection) (speed count : Int) : Except Fault Outputs :=
  buildOutputs opAbsolute
    [⟨fieldDirection, directionBits dir⟩, ⟨fieldCommandSpeed, speedBits cfg speed⟩, ⟨fieldCommandAngle, countBits cfg count⟩]

/-- `PACK_OFS(c)` (R111). -/
def packOfs (cfg : Config) (count : Int) : Except Fault Outputs :=
  buildOutputs opOffset [⟨fieldCommandAngle, countBits cfg count⟩]

/-- `PACK_INC(s, i)` (R112); byte 1 is reserved and written 0x00 (R74). -/
def packInc (cfg : Config) (speed increment : Int) : Except Fault Outputs :=
  buildOutputs opIncrement
    [⟨fieldDirection, 0⟩, ⟨fieldCommandSpeed, speedBits cfg speed⟩, ⟨fieldCommandAngle, countBits cfg increment⟩]

/-! ### The operations -/

/-- BUILD.A6 (R110): `PACK_POS(dir, speed, SCALE(angle))`. -/
def execBuildA6 (angle : Rat) (dir : RotationDirection) (speed : Int) (s : State) : Host.Outcome State Fault Refusal :=
  s.complete (packPos s.cfg dir speed (scale s.cfg angle))

/-- BUILD.95 (R111): `PACK_OFS(SCALE(angle))`. -/
def execBuild95 (angle : Rat) (s : State) : Host.Outcome State Fault Refusal :=
  s.complete (packOfs s.cfg (scale s.cfg angle))

/-- BUILD.A8 (R112): round, then negate for CounterClockwise, then reduce. -/
def execBuildA8 (angle : Rat) (dir : RotationDirection) (speed : Int) (s : State) : Host.Outcome State Fault Refusal :=
  s.complete (packInc s.cfg speed (signedIncrement dir (scale s.cfg angle)))

/-- BUILD.92 (R113). -/
def execBuild92 (s : State) : Host.Outcome State Fault Refusal := s.complete (buildOutputs opMultiTurn [])

/-- BUILD.94 (R114). -/
def execBuild94 (s : State) : Host.Outcome State Fault Refusal := s.complete (buildOutputs opSingleTurn [])

/-- BUILD.9A (R115). -/
def execBuild9A (s : State) : Host.Outcome State Fault Refusal := s.complete (buildOutputs opStatus1 [])

/-- BUILD.9C (R116). -/
def execBuild9C (s : State) : Host.Outcome State Fault Refusal := s.complete (buildOutputs opStatus2 [])

/-- BUILD.80 (R117). -/
def execBuild80 (s : State) : Host.Outcome State Fault Refusal := s.complete (buildOutputs opPowerOff [])

/-- BUILD.88 (R118). -/
def execBuild88 (s : State) : Host.Outcome State Fault Refusal := s.complete (buildOutputs opPowerRun [])

end Sys2Proof.Machine
end

