-- ==== Sys2Proof/Machine/Flags.lean ====
section
/-!
DEFINITION. The block has no flags (10_state.md R26). What stands here are the per-operation outputs that read like flags:
the codes of `status` and `reason` (60_exceptions.md R200, R202), and the Booleans `power_on` and `ack`
(41_response_parser.md R152, R154).
-/

namespace Sys2Proof.Machine

/-- The numeric code of a status (R200); code 3 is never produced. -/
def statusCode : Status → BitVec 2
  | .ok => 0
  | .malformed => 1
  | .refused => 2

/-- The numeric code of a reason (R202). -/
def reasonCode : Reason → BitVec 2
  | .absent => 0
  | .short => 1
  | .echo => 2

/-- `power_on` (R152, C1): the polarity is the parameter `POWER_ON_WHEN_ZERO`. -/
def powerFlag (cfg : Config) (power : Byte) : Bool :=
  if cfg.powerOnWhenZero then power == 0x00 else power != 0x00

/-- `ack` (R154): a present reply of at least one byte. -/
def acknowledged : Reply → Bool
  | none => false
  | some bytes => decide (1 ≤ bytes.length)

end Sys2Proof.Machine
end

