-- ==== Sys2Proof/Machine/Parser.lean ====
section
/-!
DEFINITION. The response frame parser: the five PARSE operations (41_response_parser.md R140 to R154).
-/

namespace Sys2Proof.Machine

/-- `REQ(op)` (R141), `covering` being one more than the highest byte offset the operation reads. -/
def required (cfg : Config) (covering : Nat) : Nat := if cfg.requireFullFrame then frameLength else covering

/-- The echo check passes (R142): off, or byte 0 is the opcode parsed for. Assumption log 16. -/
def echoPasses (cfg : Config) (opcode : Byte) (bytes : List Byte) : Except Fault Bool :=
  if cfg.checkEcho then do
    let echo ← memRead bytes fieldOpcode
    .ok (echo == opcode.toNat)
  else .ok true

/-- The checks in the order of R205 (Absent, Short, Echo: R141, R142), then the opcode's fields. -/
def parseReply (cfg : Config) (opcode : Byte) (covering : Nat) (reply : Reply)
    (fields : List Byte → Except Fault Outputs) : Except Fault Outputs :=
  match reply with
  | none => .ok (Outputs.malformed .absent)
  | some bytes =>
    if bytes.length < required cfg covering then .ok (Outputs.malformed .short)
    else do
      let passes ← echoPasses cfg opcode bytes
      if passes then fields bytes else .ok (Outputs.malformed .echo)

/-! ### The outputs of each PARSE as a function of the configuration and the reply (R3) -/

/-- PARSE.92 (R150). -/
def outParse92 (cfg : Config) (reply : Reply) : Except Fault Outputs :=
  parseReply cfg opMultiTurn requiredMultiTurn reply fun bytes => do
    let count ← signedField bytes fieldMultiTurn
    .ok (Outputs.multiTurn count)

/-- PARSE.94 (R151): unsigned, no sign extension. -/
def outParse94 (cfg : Config) (reply : Reply) : Except Fault Outputs :=
  parseReply cfg opSingleTurn requiredSingleTurn reply fun bytes => do
    let count ← memRead bytes fieldSingleTurn
    .ok (Outputs.singleTurn count)

/-- PARSE.9A (R152). -/
def outParse9A (cfg : Config) (reply : Reply) : Except Fault Outputs :=
  parseReply cfg opStatus1 requiredStatus1 reply fun bytes => do
    let temp ← memRead bytes fieldTemperature
    let volt ← signedField bytes fieldVoltage
    let power ← memRead bytes fieldPower
    let raw : Byte := BitVec.ofNat 8 power
    .ok (Outputs.status1 temp volt raw (powerFlag cfg raw))

/-- PARSE.9C (R153). -/
def outParse9C (cfg : Config) (reply : Reply) : Except Fault Outputs :=
  parseReply cfg opStatus2 requiredStatus2 reply fun bytes => do
    let speed ← signedField bytes fieldReplySpeed
    .ok (Outputs.status2 speed)

/-- PARSE.95 (R154): never MALFORMED; R141 and R142 do not apply. -/
def outParse95 (reply : Reply) : Except Fault Outputs := .ok (Outputs.presence (acknowledged reply))

/-! ### The operations -/

/-- PARSE.92 (R150). -/
def execParse92 (reply : Reply) (s : State) : Host.Outcome State Fault Refusal := s.complete (outParse92 s.cfg reply)

/-- PARSE.94 (R151). -/
def execParse94 (reply : Reply) (s : State) : Host.Outcome State Fault Refusal := s.complete (outParse94 s.cfg reply)

/-- PARSE.9A (R152). -/
def execParse9A (reply : Reply) (s : State) : Host.Outcome State Fault Refusal := s.complete (outParse9A s.cfg reply)

/-- PARSE.9C (R153). -/
def execParse9C (reply : Reply) (s : State) : Host.Outcome State Fault Refusal := s.complete (outParse9C s.cfg reply)

/-- PARSE.95 (R154). -/
def execParse95 (reply : Reply) (s : State) : Host.Outcome State Fault Refusal := s.complete (outParse95 reply)

end Sys2Proof.Machine
end

