-- ==== Sys2Proof/Machine/Dispatch.lean ====
section
/-!
DEFINITION. One arm per operation of spec/opcode_table.json.
-/

namespace Sys2Proof.Machine

def exec (i : Instr) (s : State) : Host.Outcome State Fault Refusal :=
  match i with
  | .buildA6 angle dir speed => Sys2Proof.Machine.execBuildA6 angle dir speed s
  | .build95 angle => Sys2Proof.Machine.execBuild95 angle s
  | .buildA8 angle dir speed => Sys2Proof.Machine.execBuildA8 angle dir speed s
  | .build92 => Sys2Proof.Machine.execBuild92 s
  | .build94 => Sys2Proof.Machine.execBuild94 s
  | .build9A => Sys2Proof.Machine.execBuild9A s
  | .build9C => Sys2Proof.Machine.execBuild9C s
  | .build80 => Sys2Proof.Machine.execBuild80 s
  | .build88 => Sys2Proof.Machine.execBuild88 s
  | .parse92 reply => Sys2Proof.Machine.execParse92 reply s
  | .parse94 reply => Sys2Proof.Machine.execParse94 reply s
  | .parse9A reply => Sys2Proof.Machine.execParse9A reply s
  | .parse9C reply => Sys2Proof.Machine.execParse9C reply s
  | .parse95 reply => Sys2Proof.Machine.execParse95 reply s

end Sys2Proof.Machine
end

