-- ==== Sys2Proof/Machine/Step.lean ====
section
/-!
DEFINITION. One step is one operation of the host's list (10_state.md R24, 20_memory.md R49, 70_reset_and_hazards.md R249).
-/

namespace Sys2Proof.Machine

/-- Take the operation on the input ports, decode it, perform it; a `sel` that names none is refused by its own status
(R204). -/
def step (s : State) : Host.Outcome State Fault Refusal :=
  match fetch s with
  | .stopped f => .fault f
  | .refused r => .refused r
  | .operation o =>
    match decode o with
    | .ok i => exec i s
    | .error _ => .next s.refuse

/-- `s` with the operation of select word `w` presented next, every operand port zero, in a run that has a meaning: it
takes the place of the head of the host's list. Assumption log 1 and 2. -/
def State.withFetchWord (s : State) (_nbits w : Nat) : State :=
  { s with
    pending := Operation.idle (BitVec.ofNat 9 w) :: s.pending.tail
    run := .meaningful }

end Sys2Proof.Machine
end

