-- ==== Sys2Proof/Machine/Readback.lean ====
section
/-!
DEFINITION. The readback functions of a command frame (41_response_parser.md R155); they are not operations.
-/

namespace Sys2Proof.Machine

/-- The unsigned value of a field of a command frame. -/
def commandField (frame : Memory) (f : Field) : Nat := leValue (((Memory.bytes frame).drop f.offset).take f.width)

/-- `CMD_ANGLE_CNT(F)` (R155). -/
def cmdAngleCnt (frame : Memory) : Int := sext (8 * fieldCommandAngle.width) (commandField frame fieldCommandAngle)

/-- `CMD_ANGLE(F)`, degrees (R155). -/
def cmdAngle (frame : Memory) : Rat := cmdAngleCnt frame / angleScale

/-- `CMD_SPEED(F)`, dps, for 0xA6 and 0xA8 (R155). -/
def cmdSpeed (frame : Memory) : Nat := commandField frame fieldCommandSpeed

/-- `CMD_DIR(F)`, for 0xA6 (R155). -/
def cmdDir (frame : Memory) : Nat := commandField frame fieldDirection

end Sys2Proof.Machine
end

