-- ==== Sys2Proof/Machine/Session.lean ====
section
/-!
DEFINITION. The host's session operations as sequences of block operations with host steps between them (30_encoding.md
R78 to R84; 10_state.md R30; 70_reset_and_hazards.md R242). None of it is state of the block. Assumption log 10 and 11.
-/

namespace Sys2Proof.Machine

/-- What the Motor Session keeps (R30): the active MotorId, the rest of the roster in cycling order (S7), and
StagedParameters, absent before the first `setParameters` (R242). -/
structure Session where
  active : Nat
  others : List Nat
  staged : Option Staged
  deriving DecidableEq, Repr

/-- The CLI commands (R78 to R84), each with the replies the transport returns in it (`none`: no reply). -/
inductive Command where
  /-- command 1, `selectNext()` -/
  | selectNext
  /-- command 2, `setParameters` -/
  | setParameters (parameters : Staged)
  /-- command 3, MOVE_ABS (R78) -/
  | moveAbs
  /-- command 4, ZERO_AT (R80) -/
  | zeroAt (angle : Rat) (reply : Reply)
  /-- command 5, MOVE_INC (R79) -/
  | moveInc
  /-- command 6, READ_ANGLES (R81) -/
  | readAngles (multiTurn singleTurn : Reply)
  /-- command 7, READ_STATUS (R82) -/
  | readStatus (status1 status2 : Reply)
  /-- command 9, TOGGLE_POWER (R83) -/
  | togglePower (status1 : Reply)
  /-- command q -/
  | quit
  deriving DecidableEq, Repr

/-- A block operation, or a host step: send the last built `tx` to an identifier, or receive (R78 to R83, R247). -/
inductive Action where
  | operate (i : Instr)
  | send (identifier : ArbId)
  | receive (reply : Reply)
  deriving DecidableEq, Repr

/-- StagedParameters as a move reads them: the free draw before the first `setParameters` (R242). -/
def Session.parameters (h : Session) : Staged := h.staged.getD Config.stagedInit

/-- Build, send, receive: one transaction with a reply (R80 to R83). -/
def Session.transaction (h : Session) (build : Instr) (reply : Reply) : List Action :=
  [.operate build, .send (arbId h.active), .receive reply]

/-- The last part of TOGGLE_POWER (R83): only if `status = OK`, BUILD.80 when `power_on`, else BUILD.88, and send. -/
def Session.powerChoice (h : Session) (o : Outputs) : Except Fault (List Action) :=
  if o.status = some .ok then do
    let on ← readPort .powerOn o.powerOn
    .ok [.operate (if on then .build80 else .build88), .send (arbId h.active)]
  else .ok []

/-- What a command expands to (R78 to R84, D27). -/
def Session.actions (cfg : Config) (h : Session) : Command → Except Fault (List Action)
  | .selectNext => .ok []
  | .setParameters _ => .ok []
  | .moveAbs =>
    let p := h.parameters
    .ok [.operate (.buildA6 p.angle p.dir p.speed), .send (arbId h.active)]
  | .zeroAt angle reply => .ok (h.transaction (.build95 angle) reply ++ [.operate (.parse95 reply)])
  | .moveInc =>
    let p := h.parameters
    .ok [.operate (.buildA8 p.angle p.dir p.speed), .send (arbId h.active)]
  | .readAngles multiTurn singleTurn =>
    .ok (h.transaction .build92 multiTurn ++ [.operate (.parse92 multiTurn)] ++
      (h.transaction .build94 singleTurn ++ [.operate (.parse94 singleTurn)]))
  | .readStatus status1 status2 =>
    .ok (h.transaction .build9A status1 ++ [.operate (.parse9A status1)] ++
      (h.transaction .build9C status2 ++ [.operate (.parse9C status2)]))
  | .togglePower status1 => do
    let o ← outParse9A cfg status1
    let choice ← h.powerChoice o
    .ok (h.transaction .build9A status1 ++ [.operate (.parse9A status1)] ++ choice)
  | .quit => .ok []

/-- The session after a command: only `selectNext` and `setParameters` change it (R78, R80, R84; S7 for the cycle). -/
def Session.after (h : Session) : Command → Session
  | .selectNext =>
    match h.others with
    | [] => h
    | m :: ms => { h with active := m, others := ms ++ [h.active] }
  | .setParameters p => { h with staged := some p }
  | .moveAbs => h
  | .zeroAt _ _ => h
  | .moveInc => h
  | .readAngles _ _ => h
  | .readStatus _ _ => h
  | .togglePower _ => h
  | .quit => h

/-- The block operations among the actions, as written. -/
def operationsOf : List Action → List Instr
  | [] => []
  | .operate i :: rest => i :: operationsOf rest
  | .send _ :: rest => operationsOf rest
  | .receive _ :: rest => operationsOf rest

/-- The host presents the block operations of a sequence, in order (R24, R249). -/
def State.presentActions (s : State) (actions : List Action) : State :=
  s.present ((operationsOf actions).map encode)

end Sys2Proof.Machine
end

