-- ==== Sys2Proof/Safety.lean ====
section
/-!
DEFINITION. The terms claims use: what outputs an operation can leave, the machine's invariant, what it means that an
operation completes, and when two presentations agree on the ports an operation reads.
-/

namespace Sys2Proof.Machine

/-- The outputs an operation can leave (R23, R25, R200, R202): one of the shapes below, every other port without value,
each value in its port's range, each physical value `count / 100`. -/
def Outputs.Legal (cfg : Config) (o : Outputs) : Prop :=
  o = Outputs.refused ∨
  (∃ r, o = Outputs.malformed r ∧ (r = .echo → cfg.checkEcho = true)) ∨
  (∃ frame, o = Outputs.built frame ∧ Memory.wf frame = true) ∨
  (∃ c, o = Outputs.multiTurn c ∧ -2 ^ 55 ≤ c ∧ c < 2 ^ 55) ∨
  (∃ c, o = Outputs.singleTurn c ∧ c < 2 ^ 32) ∨
  (∃ t v p, o = Outputs.status1 t v p (powerFlag cfg p) ∧ t < 2 ^ 8 ∧ -2 ^ 15 ≤ v ∧ v < 2 ^ 15) ∨
  (∃ v, o = Outputs.status2 v ∧ -2 ^ 15 ≤ v ∧ v < 2 ^ 15) ∨
  ∃ b, o = Outputs.presence b

/-- The output port holds no value (R25). -/
def Outputs.HoldsNoValue (o : Outputs) : OutPort → Prop
  | .status => o.status = none
  | .reason => o.reason = none
  | .tx => o.tx = none
  | .mtCnt => o.mtCnt = none
  | .mtDeg => o.mtDeg = none
  | .stCnt => o.stCnt = none
  | .stDeg => o.stDeg = none
  | .tempC => o.tempC = none
  | .voltCnt => o.voltCnt = none
  | .voltV => o.voltV = none
  | .powerRaw => o.powerRaw = none
  | .powerOn => o.powerOn = none
  | .speedDps => o.speedDps = none
  | .ack => o.ack = none

/-- Reading the output port is the fault that names it (R25, I11; assumption log 7). -/
def Outputs.ReadFaults (o : Outputs) : OutPort → Prop
  | .status => readPort .status o.status = .error (.noValue .status)
  | .reason => readPort .reason o.reason = .error (.noValue .reason)
  | .tx => readPort .tx o.tx = .error (.noValue .tx)
  | .mtCnt => readPort .mtCnt o.mtCnt = .error (.noValue .mtCnt)
  | .mtDeg => readPort .mtDeg o.mtDeg = .error (.noValue .mtDeg)
  | .stCnt => readPort .stCnt o.stCnt = .error (.noValue .stCnt)
  | .stDeg => readPort .stDeg o.stDeg = .error (.noValue .stDeg)
  | .tempC => readPort .tempC o.tempC = .error (.noValue .tempC)
  | .voltCnt => readPort .voltCnt o.voltCnt = .error (.noValue .voltCnt)
  | .voltV => readPort .voltV o.voltV = .error (.noValue .voltV)
  | .powerRaw => readPort .powerRaw o.powerRaw = .error (.noValue .powerRaw)
  | .powerOn => readPort .powerOn o.powerOn = .error (.noValue .powerOn)
  | .speedDps => readPort .speedDps o.speedDps = .error (.noValue .speedDps)
  | .ack => readPort .ack o.ack = .error (.noValue .ack)

/-- The machine's invariant: the index counts the operations performed (R24), every recorded output is legal (R23), the
ports show the latest outputs or nothing (R25, R31), a run without a meaning is one that saw a refusal (R249), and every
presented reply buffer is canonical. -/
structure State.Inv (s : State) : Prop where
  index_counts : s.index = s.trace.length
  trace_legal : ∀ o ∈ s.trace, o.Legal s.cfg
  out_latest : s.out = Outputs.empty ∨ s.trace.getLast? = some s.out
  run_meaning : s.run = .withoutMeaning ↔ Outputs.refused ∈ s.trace
  pending_wf : ∀ o ∈ s.pending, Memory.wf o.rx = true

/-- `exec i` at `s` answers the next state in which the outputs are `o`, the index has advanced by one, the observation has
grown by `o`, the presentation is over, and nothing else has changed (R24, R25, R249). -/
def Completes (i : Instr) (s : State) (o : Outputs) : Prop :=
  exec i s = .next
    { cfg := s.cfg, pending := s.pending.tail, index := s.index + 1, out := o, trace := s.trace ++ [o], run := s.run }

/-- `exec i` at `s` completes with `status = OK` and a command frame whose eight bytes are `bytes`, no other output port
holding a value (R100, R106). -/
def BuildsFrame (i : Instr) (s : State) (bytes : List Byte) : Prop :=
  ∃ frame, Completes i s (Outputs.built frame) ∧ Memory.wf frame = true ∧ Memory.bytes frame = bytes

/-- The two presentations agree on the delivered reply bytes of a field; a byte at index `>= rx_len` may differ (R22). -/
def Operation.agreeOn (a b : Operation) (f : Field) : Prop :=
  ∀ k, f.offset ≤ k → k < f.offset + f.width → k < a.rxLen.val → Memory.read a.rx k = Memory.read b.rx k

/-- The two presentations agree on presence and length, and, of a present reply, on byte 0 under `CHECK_ECHO` and on the
fields named (R140 to R142). -/
def Operation.agreeReply (cfg : Config) (a b : Operation) (fields : List Field) : Prop :=
  a.rxPresent = b.rxPresent ∧
  (a.rxPresent = true →
    a.rxLen = b.rxLen ∧ (cfg.checkEcho = true → a.agreeOn b fieldOpcode) ∧ ∀ f ∈ fields, a.agreeOn b f)

/-- The two presentations select the same operation and agree on every port its rule names (R22, R45, R110 to R118, R150 to
R154); every other port may differ. -/
def Operation.agreeNamed (cfg : Config) (a b : Operation) : Prop :=
  a.sel = b.sel ∧
  (a.sel = 0x0A6 ∨ a.sel = 0x0A8 → a.angle = b.angle ∧ a.dir = b.dir ∧ a.speed = b.speed) ∧
  (a.sel = 0x095 → a.angle = b.angle) ∧
  (a.sel = 0x192 → a.agreeReply cfg b [fieldMultiTurn]) ∧
  (a.sel = 0x194 → a.agreeReply cfg b [fieldSingleTurn]) ∧
  (a.sel = 0x19A → a.agreeReply cfg b [fieldTemperature, fieldVoltage, fieldPower]) ∧
  (a.sel = 0x19C → a.agreeReply cfg b [fieldReplySpeed]) ∧
  (a.sel = 0x195 → a.rxPresent = b.rxPresent ∧ (a.rxPresent = true → a.rxLen = b.rxLen))

/-- The select words of the opcode table (R61), in its order. -/
def tableSelects : List Sel :=
  [0x0A6, 0x095, 0x0A8, 0x092, 0x094, 0x09A, 0x09C, 0x080, 0x088, 0x192, 0x194, 0x19A, 0x19C, 0x195]

end Sys2Proof.Machine
end

