-- ==== Sys2Proof/Certificates/Slice0/Obligations.lean ====
section
/-!
DEFINITION. The statements for the provers, from the spec's numbered rules; OBLIGATIONS.json lists them. Every statement
holds for every configuration (R6) unless it names one.
-/

open Sys2Proof Sys2Proof.Machine

/-! ### Reset and the run -/

/-- R31, R240, R6: before the first operation no output port holds a value, and the configuration is the spec's. That the
list, the index and the observation start empty and the run meaningful is the model's choice (assumption log 9). -/
def Obligations.ResetLeavesNoOutput : Prop :=
  State.reset =
    { cfg := { roundMode := .halfEven, widthReduction := .wrap, powerOnWhenZero := true, requireFullFrame := false,
               checkEcho := false }
      pending := [], index := 0, trace := [], run := .meaningful
      out := { status := none, reason := none, tx := none, mtCnt := none, mtDeg := none, stCnt := none, stDeg := none,
               tempC := none, voltCnt := none, voltV := none, powerRaw := none, powerOn := none, speedDps := none,
               ack := none } }

/-- The state after reset meets the invariant, whatever the configuration. -/
def Obligations.ResetMeetsInvariant : Prop := ∀ cfg, (State.resetWith cfg).Inv

/-- Every step keeps the invariant (R23, R24, R25, R200, R202, R249), from every state that meets it. -/
def Obligations.StepKeepsInvariant : Prop := ∀ s s' : State, s.Inv → step s = .next s' → s'.Inv

/-- R240: a reset leaves no output port with a value and changes nothing that an operation or a step gives ("the first
operation after reset behaves exactly as any later one"). What a reset in the middle of a run clears (`State.afterReset`:
the output ports, and nothing of the host's list, index and observation) is the model's choice, assumption log 9. -/
def Obligations.ResetIsUnobservable : Prop :=
  ∀ s : State, s.afterReset.out = Outputs.empty ∧ step s.afterReset = step s ∧
    ∀ i : Instr, exec i s.afterReset = exec i s

/-- R24, R52: in a run that has a meaning, the step at a presentation that decodes is `exec` of the decoded operation at
the same state; `exec` itself ends the presentation and advances the index (StepAdvancesTheRun). -/
def Obligations.StepRunsDecodedOperation : Prop :=
  ∀ (s : State) (o : Operation) (rest : List Operation) (i : Instr),
    s.pending = o :: rest → s.run = .meaningful → decode o = .ok i → step s = exec i s

/-- The host's placing of a select word: the next step is `exec` of what the decoder reads from it. -/
def Obligations.FetchWordRunsTheTableOperation : Prop :=
  ∀ (s : State) (nbits w : Nat) (i : Instr),
    decodeTableWord nbits w = some i → step (s.withFetchWord nbits w) = exec i (s.withFetchWord nbits w)

/-- R204, R75: a `sel` outside the table gives `status = REFUSED` and no other output, whatever the other ports hold. That
the run has no meaning afterwards is R249, as the model reads it (assumption log 5). -/
def Obligations.UnlistedSelectIsRefused : Prop :=
  ∀ (s : State) (o : Operation) (rest : List Operation),
    s.pending = o :: rest → s.run = .meaningful → o.sel ∉ tableSelects →
      step s = .next
        { cfg := s.cfg, pending := rest, index := s.index + 1, out := { status := some .refused },
          trace := s.trace ++ [{ status := some .refused }], run := .withoutMeaning }

/-- R249: the run ends when the list is exhausted, and has no meaning after a refused operation (assumption log 5, 13). -/
def Obligations.RunStopsAtItsEndOrWithoutMeaning : Prop :=
  (∀ s : State, s.pending = [] → step s = .fault .runEnded) ∧
  ∀ (s : State) (o : Operation) (rest : List Operation),
    s.pending = o :: rest → s.run = .withoutMeaning → step s = .refused .runHasNoMeaning

/-- R24, R27, R241, R249: a step that answers a next state advances the index by exactly one, ends one presentation, adds
the outputs to the observation, and never changes the configuration. -/
def Obligations.StepAdvancesTheRun : Prop :=
  ∀ s s' : State, step s = .next s' →
    s'.cfg = s.cfg ∧ s'.index = s.index + 1 ∧ s'.pending = s.pending.tail ∧ s'.trace = s.trace ++ [s'.out] ∧
      (s'.run = s.run ∨ s'.out = Outputs.refused)

/-- R106, R201, R203, R208: no presented operation of a run with a meaning stops the machine. -/
def Obligations.PresentedOperationAlwaysCompletes : Prop :=
  ∀ (s : State) (o : Operation) (rest : List Operation),
    s.pending = o :: rest → s.run = .meaningful → ∃ s', step s = .next s'

/-- R249, R49, R3: a run over a list of written operations performs them all in order; its observation is the list of their
outputs, each a function of that operation and the configuration alone; after the last the run has ended. -/
def Obligations.RunPerformsTheWholeList : Prop :=
  ∀ (s : State) (is : List Instr),
    (∀ i ∈ is, i.wf = true) → s.run = .meaningful → s.pending = is.map encode →
      ∃ (outs : List Outputs) (t : State), core.run is.length s = .next t ∧ outs.length = is.length ∧
        t.trace = s.trace ++ outs ∧ t.index = s.index + is.length ∧ t.pending = [] ∧ t.cfg = s.cfg ∧
        (∀ (k : Nat) (i : Instr) (o : Outputs), is[k]? = some i → outs[k]? = some o →
          ∀ u : State, u.cfg = s.cfg → exec i u = .next (u.finish o)) ∧
        step t = .fault .runEnded

/-- R3: the outputs of an operation are a function of its inputs and the configuration alone: two states with the same
configuration, however they differ otherwise, get the same outputs. -/
def Obligations.OutputsAreAFunctionOfInputs : Prop :=
  ∀ (i : Instr) (s t : State), s.cfg = t.cfg →
    ∃ o : Outputs, exec i s = .next (s.finish o) ∧ exec i t = .next (t.finish o)

/-- R200, R202, R203: an operation that completes has exactly one status, never REFUSED; `reason` holds a value exactly when
the status is MALFORMED, and then no other port does; a BUILD and PARSE.95 always answer OK. -/
def Obligations.EveryOperationHasOneStatus : Prop :=
  ∀ (i : Instr) (s s' : State), exec i s = .next s' →
    (s'.out.status = some .ok ∨ s'.out.status = some .malformed) ∧
    (s'.out.status = some .ok → s'.out.reason = none) ∧
    (s'.out.status = some .malformed → ∃ r, s'.out = { status := some .malformed, reason := some r }) ∧
    (i.isParse = false → s'.out.status = some .ok) ∧
    (∀ r, i = .parse95 r → s'.out.status = some .ok)

/-- R23, R25, R100, R140: each output port holds a value only after the operation that R23 says writes it. -/
def Obligations.PortsAreWrittenOnlyByTheirOperations : Prop :=
  ∀ (i : Instr) (s s' : State), exec i s = .next s' →
    (s'.out.tx ≠ none ↔ i.isParse = false) ∧
    (s'.out.mtCnt ≠ none ∨ s'.out.mtDeg ≠ none → ∃ r, i = .parse92 r) ∧
    (s'.out.stCnt ≠ none ∨ s'.out.stDeg ≠ none → ∃ r, i = .parse94 r) ∧
    (s'.out.tempC ≠ none ∨ s'.out.voltCnt ≠ none ∨ s'.out.voltV ≠ none ∨ s'.out.powerRaw ≠ none ∨
      s'.out.powerOn ≠ none → ∃ r, i = .parse9A r) ∧
    (s'.out.speedDps ≠ none → ∃ r, i = .parse9C r) ∧
    (s'.out.ack ≠ none ↔ ∃ r, i = .parse95 r) ∧
    (s'.out.reason ≠ none → ∃ r, i = .parse92 r ∨ i = .parse94 r ∨ i = .parse9A r ∨ i = .parse9C r)

/-- R25, I11, with the fault in the model's form (assumption log 7): of whatever outputs an operation leaves, reading a port
faults exactly where the port holds no value, for each of the fourteen ports. So it is for every port right after reset,
and, after an absent reply to any of the four checked PARSE operations, for every port but `status` and `reason`. -/
def Obligations.UnwrittenPortReadsFault : Prop :=
  (∀ (i : Instr) (s s' : State) (p : OutPort), exec i s = .next s' → (s'.out.ReadFaults p ↔ s'.out.HoldsNoValue p)) ∧
  (∀ p : OutPort, State.reset.out.ReadFaults p) ∧
  ∀ (s : State), ∀ i ∈ [Instr.parse92 none, .parse94 none, .parse9A none, .parse9C none],
    ∃ s', exec i s = .next s' ∧ readPort .status s'.out.status = .ok .malformed ∧
      readPort .reason s'.out.reason = .ok .absent ∧
      ∀ p : OutPort, p ≠ .status → p ≠ .reason → s'.out.ReadFaults p

/-! ### Decoding -/

/-- R60, R61, R77, R22: decoding the presentation of a written operation gives it back, with every operand. -/
def Obligations.DecodeEncodeAgree : Prop := ∀ i : Instr, i.wf = true → decode (encode i) = .ok i

/-- R60, R77: what a presentation decodes to has that presentation's select word, and is well formed. -/
def Obligations.DecodedSelectIsTheOperations : Prop :=
  ∀ (o : Operation) (i : Instr), decode o = .ok i → o.sel = i.sel ∧ i.wf = true

/-- R61: exactly fourteen select words name an operation, whatever the other ports hold. -/
def Obligations.SelectTableIsExact : Prop :=
  tableSelects.Nodup ∧ tableSelects.length = 14 ∧
    ∀ o : Operation, (∃ i, decode o = .ok i) ↔ o.sel ∈ tableSelects

/-- R61: a few select words of both kinds, and neighbours that name nothing (section 2.11 of 95_test_vectors.md). -/
def Obligations.SelectWordsDecode : Prop :=
  decodeTableWord 16 0x0A6 = some (.buildA6 0 .clockwise 0) ∧ decodeTableWord 16 0x088 = some .build88 ∧
  decodeTableWord 16 0x192 = some (.parse92 none) ∧ decodeTableWord 16 0x195 = some (.parse95 none) ∧
  decodeTableWord 16 0x000 = none ∧ decodeTableWord 16 0x0A7 = none ∧ decodeTableWord 16 0x093 = none ∧
  decodeTableWord 16 0x1A6 = none ∧ decodeTableWord 16 0x1A8 = none ∧ decodeTableWord 16 0x180 = none ∧
  decodeTableWord 16 0x188 = none ∧ decodeTableWord 16 0x1FF = none

/-- R77: each second name stands for the same operation as the first. -/
def Obligations.SecondNamesAgree : Prop :=
  selOfName "ABS" = selOfName "BUILD.A6" ∧ selOfName "ZERO" = selOfName "BUILD.95" ∧
  selOfName "INC" = selOfName "BUILD.A8" ∧ selOfName "RDMT" = selOfName "BUILD.92" ∧
  selOfName "RDST" = selOfName "BUILD.94" ∧ selOfName "RDS1" = selOfName "BUILD.9A" ∧
  selOfName "RDS2" = selOfName "BUILD.9C" ∧ selOfName "OFF" = selOfName "BUILD.80" ∧
  selOfName "RUN" = selOfName "BUILD.88" ∧ selOfName "BUILD.A6" = some 0x0A6 ∧ selOfName "PARSE.9C" = some 0x19C

/-- R22, R45, R67, R156: ports and reply bytes that the operation's rule does not name never matter, nor do reply bytes at
index `>= rx_len`. -/
def Obligations.UnnamedPortsAreIgnored : Prop :=
  ∀ (s : State) (a b : Operation) (rest : List Operation), a.agreeNamed s.cfg b →
    step { s with pending := a :: rest } = step { s with pending := b :: rest }

/-! ### Frame memory -/

/-- R43: MemRead is the little-endian sum over the field's bytes, in [0, 256^n), wherever they are delivered; and the checks
of every operation establish that before it reads: no operation ever faults. -/
def Obligations.MemReadIsLittleEndian : Prop :=
  (∀ (bytes : List Byte) (f : Field), f.offset + f.width ≤ bytes.length →
    ∃ v, memRead bytes f = .ok v ∧ v < 256 ^ f.width ∧
      v = ∑ i ∈ Finset.range f.width, (bytes.getD (f.offset + i) 0).toNat * 256 ^ i) ∧
  ∀ (i : Instr) (s : State) (f : Fault), exec i s ≠ .fault f

/-- R44: MemWrite of a value that fits sets exactly the field's bytes, least significant first, and MemRead gives it back. -/
def Obligations.MemWriteThenMemRead : Prop :=
  ∀ (m : Memory) (f : Field) (v : Nat), Memory.wf m = true → f.offset + f.width ≤ 8 → v < 256 ^ f.width →
    ∃ m', memWrite m f v = .ok m' ∧ Memory.wf m' = true ∧ memRead (Memory.bytes m') f = .ok v ∧
      ∀ c, ¬(f.offset ≤ c ∧ c < f.offset + f.width) → Memory.read m' c = Memory.read m c

/-- R40, R43 as the model reads them (assumption log 8): an access outside the delivered bytes, or outside the frame, faults. -/
def Obligations.AccessOutsideTheFrameFaults : Prop :=
  (∀ (bytes : List Byte) (f : Field), bytes.length < f.offset + f.width →
    memRead bytes f = .error .readBeyondReply) ∧
  ∀ (m : Memory) (f : Field) (v : Nat), 8 < f.offset + f.width → memWrite m f v = .error .writeOutsideFrame

/-! ### Scaling, rounding, width reduction -/

/-- R102: what each rounding mode gives, for every rational. -/
def Obligations.RoundingModesMeetTheirRule : Prop :=
  ∀ x : Rat,
    (|x - roundTo .halfEven x| ≤ 1 / 2 ∧ (|x - roundTo .halfEven x| = 1 / 2 → roundTo .halfEven x % 2 = 0)) ∧
    (|x - roundTo .halfAway x| ≤ 1 / 2 ∧ (|x - roundTo .halfAway x| = 1 / 2 → |x| < |(roundTo .halfAway x : Rat)|)) ∧
    ((0 ≤ x → (roundTo .towardZero x : Rat) ≤ x ∧ x < roundTo .towardZero x + 1) ∧
      (x < 0 → x ≤ roundTo .towardZero x ∧ (roundTo .towardZero x : Rat) < x + 1)) ∧
    ((roundTo .floor x : Rat) ≤ x ∧ x < roundTo .floor x + 1)

/-- R102: every mode but Floor is an odd function, and Floor is not. -/
def Obligations.RoundingIsOddButForFloor : Prop :=
  (∀ (mode : RoundMode) (x : Rat), mode ≠ .floor → roundTo mode (-x) = -roundTo mode x) ∧
    ∃ x : Rat, roundTo .floor (-x) ≠ -roundTo .floor x

/-- R119, R101, R102: an angle on the 0.01 degree grid is not changed by rounding, in any mode. -/
def Obligations.GridAnglesAreExact : Prop := ∀ (cfg : Config) (k : Int), scale cfg ((k : Rat) / 100) = k

/-- R103, R104: a value in the field's range is carried unchanged, under either reduction. -/
def Obligations.ReductionKeepsValuesInRange : Prop :=
  ∀ (cfg : Config) (n : Nat) (v : Int), 0 < n →
    (-2 ^ (n - 1) ≤ v → v ≤ 2 ^ (n - 1) - 1 → sext n (reduceS cfg n v) = v) ∧
    (0 ≤ v → v ≤ 2 ^ n - 1 → (reduceU cfg n v : Int) = v)

/-- R119, R103, R104: a value outside the field's range is reduced modulo 2^N under Wrap, and becomes the nearest bound
under Saturate. -/
def Obligations.ReductionOutsideTheRange : Prop :=
  ∀ (cfg : Config) (n : Nat) (v : Int), 0 < n →
    (cfg.widthReduction = .wrap →
      (reduceS cfg n v : Int) = v % 2 ^ n ∧ (reduceU cfg n v : Int) = v % 2 ^ n ∧
      (2 : Int) ^ n ∣ sext n (reduceS cfg n v) - v) ∧
    (cfg.widthReduction = .saturate →
      (2 ^ (n - 1) ≤ v → sext n (reduceS cfg n v) = 2 ^ (n - 1) - 1) ∧
      (v < -2 ^ (n - 1) → sext n (reduceS cfg n v) = -2 ^ (n - 1)) ∧
      (2 ^ n ≤ v → (reduceU cfg n v : Int) = 2 ^ n - 1) ∧ (v < 0 → reduceU cfg n v = 0))

/-! ### The builder -/

/-- R106: every BUILD completes with `status = OK` and a frame, whatever its operands. -/
def Obligations.BuilderNeverFails : Prop :=
  ∀ (i : Instr) (s : State), i.isParse = false →
    ∃ frame, Completes i s (Outputs.built frame) ∧ Memory.wf frame = true ∧ Memory.read frame 0 = i.opcode

/-- R110: BUILD.A6 is `[0xA6, d, LE16(REDUCE_U(16, speed)), LE32(REDUCE_S(32, SCALE(angle)))]`; with the rule's corner
case of the count 2^31 and its example, under every configuration. -/
def Obligations.BuildA6EncodesThePosition : Prop :=
  (∀ (angle : Rat) (dir : RotationDirection) (speed : Int) (s : State),
    BuildsFrame (.buildA6 angle dir speed) s
      [0xA6, (match dir with | .clockwise => 0x00 | .counterClockwise => 0x01),
        BitVec.ofNat 8 (reduceU s.cfg 16 speed), BitVec.ofNat 8 (reduceU s.cfg 16 speed / 256),
        BitVec.ofNat 8 (reduceS s.cfg 32 (scale s.cfg angle)),
        BitVec.ofNat 8 (reduceS s.cfg 32 (scale s.cfg angle) / 256),
        BitVec.ofNat 8 (reduceS s.cfg 32 (scale s.cfg angle) / 65536),
        BitVec.ofNat 8 (reduceS s.cfg 32 (scale s.cfg angle) / 16777216)]) ∧
  (∀ cfg : Config, reduceS cfg 32 (2 ^ 31) =
    (match cfg.widthReduction with | .wrap => 0x80000000 | .saturate => 0x7FFFFFFF)) ∧
  ∀ s : State,
    BuildsFrame (.buildA6 180 .clockwise 30) s [0xA6, 0x00, 0x1E, 0x00, 0x50, 0x46, 0x00, 0x00]

/-- R111: BUILD.95 is `[0x95, 0, 0, 0, LE32(REDUCE_S(32, SCALE(angle)))]`; with the rule's corner cases (the count 2^31,
angle 0) and its example, under every configuration. -/
def Obligations.Build95EncodesTheOffset : Prop :=
  (∀ (angle : Rat) (s : State),
    BuildsFrame (.build95 angle) s
      [0x95, 0x00, 0x00, 0x00,
        BitVec.ofNat 8 (reduceS s.cfg 32 (scale s.cfg angle)),
        BitVec.ofNat 8 (reduceS s.cfg 32 (scale s.cfg angle) / 256),
        BitVec.ofNat 8 (reduceS s.cfg 32 (scale s.cfg angle) / 65536),
        BitVec.ofNat 8 (reduceS s.cfg 32 (scale s.cfg angle) / 16777216)]) ∧
  (∀ cfg : Config, reduceS cfg 32 (2 ^ 31) =
    (match cfg.widthReduction with | .wrap => 0x80000000 | .saturate => 0x7FFFFFFF)) ∧
  ∀ s : State,
    BuildsFrame (.build95 0) s [0x95, 0x00, 0x00, 0x00, 0x00, 0x00, 0x00, 0x00] ∧
    BuildsFrame (.build95 (-90)) s [0x95, 0x00, 0x00, 0x00, 0xD8, 0xDC, 0xFF, 0xFF]

/-- R112 (D8): BUILD.A8 rounds, then negates for CounterClockwise, then reduces; byte 1 is 0x00; with the rule's examples. -/
def Obligations.BuildA8EncodesTheIncrement : Prop :=
  (∀ (angle : Rat) (dir : RotationDirection) (speed : Int) (s : State) (inc : Int),
    inc = (match dir with | .clockwise => scale s.cfg angle | .counterClockwise => -scale s.cfg angle) →
    BuildsFrame (.buildA8 angle dir speed) s
      [0xA8, 0x00, BitVec.ofNat 8 (reduceU s.cfg 16 speed), BitVec.ofNat 8 (reduceU s.cfg 16 speed / 256),
        BitVec.ofNat 8 (reduceS s.cfg 32 inc), BitVec.ofNat 8 (reduceS s.cfg 32 inc / 256),
        BitVec.ofNat 8 (reduceS s.cfg 32 inc / 65536), BitVec.ofNat 8 (reduceS s.cfg 32 inc / 16777216)]) ∧
  ∀ s : State,
    BuildsFrame (.buildA8 10 .counterClockwise 100) s [0xA8, 0x00, 0x64, 0x00, 0x18, 0xFC, 0xFF, 0xFF] ∧
    BuildsFrame (.buildA8 10 .clockwise 100) s [0xA8, 0x00, 0x64, 0x00, 0xE8, 0x03, 0x00, 0x00]

/-- R113 to R118: the six operations without operands build the opcode and seven zero bytes. -/
def Obligations.BareBuildsAreTheOpcodeAlone : Prop :=
  ∀ s : State,
    BuildsFrame .build92 s [0x92, 0x00, 0x00, 0x00, 0x00, 0x00, 0x00, 0x00] ∧
    BuildsFrame .build94 s [0x94, 0x00, 0x00, 0x00, 0x00, 0x00, 0x00, 0x00] ∧
    BuildsFrame .build9A s [0x9A, 0x00, 0x00, 0x00, 0x00, 0x00, 0x00, 0x00] ∧
    BuildsFrame .build9C s [0x9C, 0x00, 0x00, 0x00, 0x00, 0x00, 0x00, 0x00] ∧
    BuildsFrame .build80 s [0x80, 0x00, 0x00, 0x00, 0x00, 0x00, 0x00, 0x00] ∧
    BuildsFrame .build88 s [0x88, 0x00, 0x00, 0x00, 0x00, 0x00, 0x00, 0x00]

/-- R63 to R66, R9: the masks that every built frame's 64-bit word meets. -/
def Obligations.BuiltFramesMeetTheirMask : Prop :=
  ∀ (s : State) (angle : Rat) (dir : RotationDirection) (speed : Int),
    (∃ f, Completes (.buildA6 angle dir speed) s (Outputs.built f) ∧ frameWord f &&& 0xFEFF = 0xA6) ∧
    (∃ f, Completes (.build95 angle) s (Outputs.built f) ∧ frameWord f &&& 0xFFFFFFFF = 0x95) ∧
    (∃ f, Completes (.buildA8 angle dir speed) s (Outputs.built f) ∧ frameWord f &&& 0xFFFF = 0xA8) ∧
    ∀ i ∈ [Instr.build92, .build94, .build9A, .build9C, .build80, .build88],
      ∃ f, Completes i s (Outputs.built f) ∧ frameWord f = i.opcode.toNat

/-- R155 (S5): an angle on the grid and in the 32-bit range reads back from the frames of BUILD.A6 and BUILD.95, and BUILD.A6
carries the direction and the reduced speed. -/
def Obligations.CommandAngleRoundTrip : Prop :=
  ∀ (k : Int) (dir : RotationDirection) (speed : Int) (s : State), -2 ^ 31 ≤ k → k ≤ 2 ^ 31 - 1 →
    (∃ f, Completes (.buildA6 ((k : Rat) / 100) dir speed) s (Outputs.built f) ∧ cmdAngle f = (k : Rat) / 100 ∧
      cmdSpeed f = reduceU s.cfg 16 speed ∧ cmdDir f = directionBits dir) ∧
    ∃ f, Completes (.build95 ((k : Rat) / 100)) s (Outputs.built f) ∧ cmdAngle f = (k : Rat) / 100

/-- R155, R112 (S3): BUILD.A8 reads back the signed increment. -/
def Obligations.IncrementReadsBackSigned : Prop :=
  ∀ (k speed : Int) (s : State), -2 ^ 31 < k → k ≤ 2 ^ 31 - 1 →
    (∃ f, Completes (.buildA8 ((k : Rat) / 100) .clockwise speed) s (Outputs.built f) ∧ cmdAngleCnt f = k) ∧
    ∃ f, Completes (.buildA8 ((k : Rat) / 100) .counterClockwise speed) s (Outputs.built f) ∧ cmdAngleCnt f = -k

/-- R119: for every rounding but Floor, CounterClockwise is Clockwise with the angle negated. -/
def Obligations.DirectionFoldsIntoTheSign : Prop :=
  ∀ (angle : Rat) (speed : Int) (s : State), s.cfg.roundMode ≠ .floor →
    exec (.buildA8 angle .counterClockwise speed) s = exec (.buildA8 (-angle) .clockwise speed) s

/-- R105, R119: a speed in [0, 65535] is carried unchanged in both position commands. -/
def Obligations.SpeedIsCarriedUnchanged : Prop :=
  ∀ (angle : Rat) (dir : RotationDirection) (speed : Int) (s : State), 0 ≤ speed → speed ≤ 65535 →
    (∃ f, Completes (.buildA6 angle dir speed) s (Outputs.built f) ∧ (cmdSpeed f : Int) = speed) ∧
    ∃ f, Completes (.buildA8 angle dir speed) s (Outputs.built f) ∧ (cmdSpeed f : Int) = speed

/-! ### The parser -/

/-- R150: PARSE.92, every reply: no reply, a short one, an echo mismatch under CHECK_ECHO, and otherwise the 56-bit count
with its sign from bit 7 of byte 7, in its range; with the rule's example. -/
def Obligations.Parse92RecoversTheMultiTurnAngle : Prop :=
  ∀ s : State,
    Completes (.parse92 none) s { status := some .malformed, reason := some .absent } ∧
    (∀ bytes : List Byte, bytes.length < 8 →
      Completes (.parse92 (some bytes)) s { status := some .malformed, reason := some .short }) ∧
    (∀ b0 b1 b2 b3 b4 b5 b6 b7 : Byte, ∀ raw count : Int,
      raw = b1.toNat + 256 * b2.toNat + 256 ^ 2 * b3.toNat + 256 ^ 3 * b4.toNat + 256 ^ 4 * b5.toNat +
        256 ^ 5 * b6.toNat + 256 ^ 6 * b7.toNat →
      count = (if b7.toNat < 0x80 then raw else raw - 2 ^ 56) →
      -2 ^ 55 ≤ count ∧ count ≤ 2 ^ 55 - 1 ∧
      Completes (.parse92 (some [b0, b1, b2, b3, b4, b5, b6, b7])) s
        (if s.cfg.checkEcho = true ∧ b0 ≠ 0x92 then { status := some .malformed, reason := some .echo }
         else { status := some .ok, mtCnt := some count, mtDeg := some (count / 100) })) ∧
    Completes (.parse92 (some [0x92, 0xFF, 0xFF, 0xFF, 0xFF, 0xFF, 0xFF, 0xFF])) s
      { status := some .ok, mtCnt := some (-1), mtDeg := some (-1 / 100) }

/-- R151 (D26): PARSE.94, every reply; the count is unsigned and never range-checked; with the rule's example. -/
def Obligations.Parse94ReadsTheSingleTurnAngle : Prop :=
  ∀ s : State,
    Completes (.parse94 none) s { status := some .malformed, reason := some .absent } ∧
    (∀ bytes : List Byte, bytes.length < 8 →
      Completes (.parse94 (some bytes)) s { status := some .malformed, reason := some .short }) ∧
    (∀ b0 b1 b2 b3 b4 b5 b6 b7 : Byte, ∀ count : Nat,
      count = b4.toNat + 256 * b5.toNat + 256 ^ 2 * b6.toNat + 256 ^ 3 * b7.toNat →
      Completes (.parse94 (some [b0, b1, b2, b3, b4, b5, b6, b7])) s
        (if s.cfg.checkEcho = true ∧ b0 ≠ 0x94 then { status := some .malformed, reason := some .echo }
         else { status := some .ok, stCnt := some count, stDeg := some (count / 100) })) ∧
    Completes (.parse94 (some [0x94, 0x00, 0x00, 0x00, 0x28, 0x23, 0x00, 0x00])) s
      { status := some .ok, stCnt := some 9000, stDeg := some 90 }

/-- R152 (D13, C1): PARSE.9A, every reply; 7 bytes suffice unless REQUIRE_FULL_FRAME; the power flag follows
POWER_ON_WHEN_ZERO. -/
def Obligations.Parse9AReadsStatus1 : Prop :=
  ∀ s : State,
    Completes (.parse9A none) s { status := some .malformed, reason := some .absent } ∧
    (∀ bytes : List Byte, bytes.length < (if s.cfg.requireFullFrame then 8 else 7) →
      Completes (.parse9A (some bytes)) s { status := some .malformed, reason := some .short }) ∧
    ∀ (b0 b1 b2 b3 b4 b5 b6 : Byte) (rest : List Byte) (raw volt : Int),
      s.cfg.requireFullFrame = false ∨ 1 ≤ rest.length →
      raw = b2.toNat + 256 * b3.toNat → volt = (if b3.toNat < 0x80 then raw else raw - 2 ^ 16) →
      Completes (.parse9A (some ([b0, b1, b2, b3, b4, b5, b6] ++ rest))) s
        (if s.cfg.checkEcho = true ∧ b0 ≠ 0x9A then { status := some .malformed, reason := some .echo }
         else
          { status := some .ok, tempC := some b1.toNat, voltCnt := some volt, voltV := some (volt / 100),
            powerRaw := some b6, powerOn := some (decide (s.cfg.powerOnWhenZero = true ↔ b6 = 0x00)) })

/-- R153: PARSE.9C, every reply; 6 bytes suffice unless REQUIRE_FULL_FRAME; with the rule's corner cases and its example. -/
def Obligations.Parse9CReadsTheSpeed : Prop :=
  ∀ s : State,
    Completes (.parse9C none) s { status := some .malformed, reason := some .absent } ∧
    (∀ bytes : List Byte, bytes.length < (if s.cfg.requireFullFrame then 8 else 6) →
      Completes (.parse9C (some bytes)) s { status := some .malformed, reason := some .short }) ∧
    (∀ (b0 b1 b2 b3 b4 b5 : Byte) (rest : List Byte) (raw speed : Int),
      s.cfg.requireFullFrame = false ∨ 2 ≤ rest.length →
      raw = b4.toNat + 256 * b5.toNat → speed = (if b5.toNat < 0x80 then raw else raw - 2 ^ 16) →
      Completes (.parse9C (some ([b0, b1, b2, b3, b4, b5] ++ rest))) s
        (if s.cfg.checkEcho = true ∧ b0 ≠ 0x9C then { status := some .malformed, reason := some .echo }
         else { status := some .ok, speedDps := some speed })) ∧
    Completes (.parse9C (some [0x9C, 0x00, 0x00, 0x00, 0xFF, 0xFF, 0x00, 0x00])) s
      { status := some .ok, speedDps := some (-1) } ∧
    Completes (.parse9C (some [0x9C, 0x00, 0x00, 0x00, 0x00, 0x80, 0x00, 0x00])) s
      { status := some .ok, speedDps := some (-32768) } ∧
    Completes (.parse9C (some [0x9C, 0x00, 0x00, 0x00, 0xD4, 0xFE, 0x00, 0x00])) s
      { status := some .ok, speedDps := some (-300) }

/-- R154 (D17): PARSE.95 answers OK for every reply; `ack` is a present reply of at least one byte, whatever it holds. -/
def Obligations.Parse95ReportsPresence : Prop :=
  ∀ s : State,
    Completes (.parse95 none) s { status := some .ok, ack := some false } ∧
    Completes (.parse95 (some [])) s { status := some .ok, ack := some false } ∧
    ∀ (b : Byte) (rest : List Byte),
      Completes (.parse95 (some (b :: rest))) s { status := some .ok, ack := some true }

/-- R156: every count of the signed fields is recovered from its little-endian two's-complement bytes. -/
def Obligations.SignedCountsAreRecovered : Prop :=
  ∀ s : State,
    (∀ c : Int, -2 ^ 55 ≤ c → c ≤ 2 ^ 55 - 1 →
      Completes (.parse92 (some (0x92 :: (List.range 7).map (byteAt (wrap 56 c))))) s (Outputs.multiTurn c)) ∧
    (∀ (c : Int) (t x y p z : Byte), -32768 ≤ c → c ≤ 32767 →
      ∃ on, Completes (.parse9A (some ([0x9A, t] ++ (List.range 2).map (byteAt (wrap 16 c)) ++ [x, y, p, z]))) s
        (Outputs.status1 t.toNat c p on)) ∧
    ∀ (c : Int) (x y z u v : Byte), -32768 ≤ c → c ≤ 32767 →
      Completes (.parse9C (some ([0x9C, x, y, z] ++ (List.range 2).map (byteAt (wrap 16 c)) ++ [u, v]))) s
        (Outputs.status2 c)

/-- R156, R143: PARSE.92 and a zero-extending reader agree exactly when byte 7 is below 0x80, and differ by 2^56 otherwise. -/
def Obligations.ZeroExtensionDiffersExactlyWhenNegative : Prop :=
  ∀ (s : State) (b1 b2 b3 b4 b5 b6 b7 : Byte),
    ∃ c : Int, Completes (.parse92 (some [0x92, b1, b2, b3, b4, b5, b6, b7])) s (Outputs.multiTurn c) ∧
      (c = leValue [b1, b2, b3, b4, b5, b6, b7] ↔ b7.toNat < 0x80) ∧
      (0x80 ≤ b7.toNat → c = leValue [b1, b2, b3, b4, b5, b6, b7] - 2 ^ 56)

/-- R142, R246 (D12): without CHECK_ECHO byte 0 never matters; with it, a full-length reply whose byte 0 is not the opcode is
MALFORMED with reason Echo. -/
def Obligations.EchoCheckDecidesMismatches : Prop :=
  ∀ (s : State) (b0 b0' : Byte) (rest : List Byte), rest.length = 7 →
    (s.cfg.checkEcho = false →
      exec (.parse92 (some (b0 :: rest))) s = exec (.parse92 (some (b0' :: rest))) s ∧
      exec (.parse94 (some (b0 :: rest))) s = exec (.parse94 (some (b0' :: rest))) s ∧
      exec (.parse9A (some (b0 :: rest))) s = exec (.parse9A (some (b0' :: rest))) s ∧
      exec (.parse9C (some (b0 :: rest))) s = exec (.parse9C (some (b0' :: rest))) s) ∧
    (s.cfg.checkEcho = true →
      (b0 ≠ 0x92 → Completes (.parse92 (some (b0 :: rest))) s (Outputs.malformed .echo)) ∧
      (b0 ≠ 0x94 → Completes (.parse94 (some (b0 :: rest))) s (Outputs.malformed .echo)) ∧
      (b0 ≠ 0x9A → Completes (.parse9A (some (b0 :: rest))) s (Outputs.malformed .echo)) ∧
      (b0 ≠ 0x9C → Completes (.parse9C (some (b0 :: rest))) s (Outputs.malformed .echo)))

/-! ### Identifier, codes, the host's sequences -/

/-- R47 (D19): `arb_id(m) = wrap_32(0x140 + m)`, with the worked examples. -/
def Obligations.ArbitrationIdentifier : Prop :=
  (∀ m : Nat, (arbId m).toNat = (0x140 + m) % 2 ^ 32) ∧ arbId 1 = 0x141 ∧ arbId 32 = 0x160 ∧ arbId 0xFFFFFFFF = 0x13F

/-- R200, R202 (D15): the codes of status and reason; no status has code 3. -/
def Obligations.StatusAndReasonCodes : Prop :=
  statusCode .ok = 0 ∧ statusCode .malformed = 1 ∧ statusCode .refused = 2 ∧ (∀ st, statusCode st ≠ 3) ∧
  reasonCode .absent = 0 ∧ reasonCode .short = 1 ∧ reasonCode .echo = 2

/-- R83 (D27): TOGGLE_POWER reads status 1 and then, only if the parse is OK, sends BUILD.80 when `power_on` and BUILD.88
when not; it never stops, whatever the reply. -/
def Obligations.TogglePowerFollowsTheStatus : Prop :=
  ∀ (cfg : Config) (h : Session) (reply : Reply), ∃ (o : Outputs) (choice : List Action),
    outParse9A cfg reply = .ok o ∧
    h.actions cfg (.togglePower reply) =
      .ok ([.operate .build9A, .send (arbId h.active), .receive reply, .operate (.parse9A reply)] ++ choice) ∧
    (o.status = some .malformed → choice = []) ∧
    (o.powerOn = some true → choice = [.operate .build80, .send (arbId h.active)]) ∧
    (o.powerOn = some false → choice = [.operate .build88, .send (arbId h.active)]) ∧
    (o.status = some .malformed ∨ o.powerOn ≠ none)

/-- R80, R81, R82 (D27): the expansions of ZERO_AT, READ_ANGLES and READ_STATUS; both transactions are issued whatever the
first reply. -/
def Obligations.ReadSequencesExpandInOrder : Prop :=
  ∀ (cfg : Config) (h : Session) (angle : Rat) (r1 r2 : Reply),
    h.actions cfg (.zeroAt angle r1) =
      .ok [.operate (.build95 angle), .send (arbId h.active), .receive r1, .operate (.parse95 r1)] ∧
    h.actions cfg (.readAngles r1 r2) =
      .ok [.operate .build92, .send (arbId h.active), .receive r1, .operate (.parse92 r1),
        .operate .build94, .send (arbId h.active), .receive r2, .operate (.parse94 r2)] ∧
    h.actions cfg (.readStatus r1 r2) =
      .ok [.operate .build9A, .send (arbId h.active), .receive r1, .operate (.parse9A r1),
        .operate .build9C, .send (arbId h.active), .receive r2, .operate (.parse9C r2)] ∧
    h.after (.zeroAt angle r1) = h

/-- R78, R79, R242, R30: a move builds with what the last `setParameters` staged, and before the first one with the free draw
`STAGED_INIT` (assumption log 10; nothing is claimed of its value), and is sent to the active motor; no move changes the
session, whose form is the model's (assumption log 11). -/
def Obligations.MovesUseTheStagedParameters : Prop :=
  ∀ (cfg : Config) (h : Session) (p : Staged),
    (h.after (.setParameters p)).actions cfg .moveAbs =
      .ok [.operate (.buildA6 p.angle p.dir p.speed), .send (arbId h.active)] ∧
    (h.after (.setParameters p)).actions cfg .moveInc =
      .ok [.operate (.buildA8 p.angle p.dir p.speed), .send (arbId h.active)] ∧
    (h.staged = some p →
      h.actions cfg .moveAbs = .ok [.operate (.buildA6 p.angle p.dir p.speed), .send (arbId h.active)] ∧
      h.actions cfg .moveInc = .ok [.operate (.buildA8 p.angle p.dir p.speed), .send (arbId h.active)]) ∧
    (h.staged = none →
      h.parameters = Config.stagedInit ∧
      h.actions cfg .moveAbs =
        .ok [.operate (.buildA6 Config.stagedInit.angle Config.stagedInit.dir Config.stagedInit.speed),
          .send (arbId h.active)] ∧
      h.actions cfg .moveInc =
        .ok [.operate (.buildA8 Config.stagedInit.angle Config.stagedInit.dir Config.stagedInit.speed),
          .send (arbId h.active)]) ∧
    h.after .moveAbs = h ∧ h.after .moveInc = h
end

