-- ==== Sys2Proof/Laws/Memory.lean ====
section
/-!
SUPPORT. The laws of the frame buffers: what a read after a write gives, and that every operation keeps the canonical form.
-/

namespace Sys2Proof.Machine

/-! ### One byte -/

@[simp] theorem Memory.read_nil (a : Nat) : Memory.read [] a = Memory.unlisted := rfl

theorem Memory.read_clear (m : Memory) (a c : Nat) :
    Memory.read (Memory.clear m a) c = if c = a then Memory.unlisted else Memory.read m c := by
  induction m with
  | nil => simp [Memory.clear]
  | cons cell m ih =>
    obtain ⟨d, v⟩ := cell
    unfold Memory.clear at ih ⊢
    by_cases hd : d = a
    · subst hd
      rw [List.filter_cons_of_neg (by simp), ih]
      by_cases hc : c = d <;> simp [Memory.read, hc]
    · rw [List.filter_cons_of_pos (by simpa using hd), Memory.read, Memory.read, ih]
      by_cases hc : c = d
      · subst hc; simp [hd]
      · simp [hc]

theorem Memory.read_place (m : Memory) (a : Nat) (b : Byte) (c : Nat) (h : ∀ cell ∈ m, cell.1 ≠ a) :
    Memory.read (Memory.place m a b) c = if c = a then b else Memory.read m c := by
  induction m with
  | nil => simp [Memory.place, Memory.read]
  | cons cell m ih =>
    obtain ⟨d, v⟩ := cell
    simp only [List.mem_cons, forall_eq_or_imp] at h
    unfold Memory.place
    split
    · simp [Memory.read]
    · simp only [Memory.read, ih h.2]
      by_cases hc : c = d
      · subst hc; simp [h.1]
      · simp [hc]

/-- A read after a write gives the byte written at its address and leaves every other address alone. -/
theorem Memory.read_write (m : Memory) (a : Nat) (b : Byte) (c : Nat) :
    Memory.read (Memory.write m a b) c = if c = a then b else Memory.read m c := by
  unfold Memory.write
  split
  · next h => rw [Memory.read_clear, h]
  · rw [Memory.read_place, Memory.read_clear]
    · split <;> rfl
    · simp [Memory.clear]

/-! ### The canonical form -/

theorem Memory.wfFrom_mono {lo lo' : Nat} {m : Memory} (h : Memory.wfFrom lo m = true) (hl : lo' ≤ lo) :
    Memory.wfFrom lo' m = true := by
  cases m with
  | nil => rfl
  | cons cell m =>
    obtain ⟨d, v⟩ := cell
    simp only [Memory.wfFrom, Bool.and_eq_true, decide_eq_true_eq] at h ⊢
    exact ⟨⟨⟨by omega, h.1.1.2⟩, h.1.2⟩, h.2⟩

theorem Memory.wfFrom_clear {lo : Nat} {m : Memory} (h : Memory.wfFrom lo m = true) (a : Nat) :
    Memory.wfFrom lo (Memory.clear m a) = true := by
  induction m generalizing lo with
  | nil => rfl
  | cons cell m ih =>
    obtain ⟨d, v⟩ := cell
    simp only [Memory.wfFrom, Bool.and_eq_true, decide_eq_true_eq] at h
    have hm := ih h.2
    unfold Memory.clear at hm ⊢
    by_cases hd : d = a
    · rw [List.filter_cons_of_neg (by simp [hd])]
      exact Memory.wfFrom_mono hm (by omega)
    · rw [List.filter_cons_of_pos (by simpa using hd)]
      simp only [Memory.wfFrom, Bool.and_eq_true, decide_eq_true_eq]
      exact ⟨h.1, hm⟩

theorem Memory.wfFrom_place {lo : Nat} {m : Memory} (h : Memory.wfFrom lo m = true) {a : Nat} {b : Byte}
    (hm : ∀ cell ∈ m, cell.1 ≠ a) (hlo : lo ≤ a) (ha : a < 8) (hb : b ≠ Memory.unlisted) :
    Memory.wfFrom lo (Memory.place m a b) = true := by
  induction m generalizing lo with
  | nil => simp [Memory.place, Memory.wfFrom, hlo, ha, hb]
  | cons cell m ih =>
    obtain ⟨d, v⟩ := cell
    simp only [Memory.wfFrom, Bool.and_eq_true, decide_eq_true_eq] at h
    simp only [List.mem_cons, forall_eq_or_imp] at hm
    unfold Memory.place
    split
    · next hlt =>
      simp only [Memory.wfFrom, Bool.and_eq_true, decide_eq_true_eq]
      exact ⟨⟨⟨hlo, ha⟩, hb⟩, ⟨⟨by omega, h.1.1.2⟩, h.1.2⟩, h.2⟩
    · next hge =>
      simp only [Memory.wfFrom, Bool.and_eq_true, decide_eq_true_eq]
      exact ⟨h.1, ih h.2 hm.2 (by have := hm.1; omega)⟩

/-- A write of one byte inside the frame keeps the canonical form. -/
theorem Memory.wf_write {m : Memory} (h : Memory.wf m = true) {a : Nat} (ha : a < 8) (b : Byte) :
    Memory.wf (Memory.write m a b) = true := by
  unfold Memory.write
  split
  · exact Memory.wfFrom_clear h a
  · next hb => exact Memory.wfFrom_place (Memory.wfFrom_clear h a) (by simp [Memory.clear]) (by omega) ha hb

@[simp] theorem Memory.wf_nil : Memory.wf [] = true := rfl

/-! ### MemWrite -/

/-- What MemWrite leaves at each address (R44). -/
theorem read_foldl_write (m : Memory) (off v c n : Nat) :
    Memory.read ((List.range n).foldl (fun m i => Memory.write m (off + i) (byteAt v i)) m) c =
      if off ≤ c ∧ c < off + n then byteAt v (c - off) else Memory.read m c := by
  induction n with
  | zero => simp
  | succ n ih =>
    rw [List.range_succ, List.foldl_append]
    simp only [List.foldl_cons, List.foldl_nil, Memory.read_write, ih]
    by_cases hc : c = off + n
    · subst hc; simp
    · simp only [hc, if_false]
      congr 1
      simp only [eq_iff_iff]
      omega

theorem wf_foldl_write {m : Memory} (h : Memory.wf m = true) (off v : Nat) {n : Nat} (hn : off + n ≤ 8) :
    Memory.wf ((List.range n).foldl (fun m i => Memory.write m (off + i) (byteAt v i)) m) = true := by
  induction n with
  | zero => simpa using h
  | succ n ih =>
    rw [List.range_succ, List.foldl_append]
    exact Memory.wf_write (ih (by omega)) (by omega) _

/-- A MemWrite inside the frame answers, keeps the canonical form, and leaves the field's bytes and no other changed. -/
theorem memWrite_spec {m : Memory} (hm : Memory.wf m = true) {f : Field} (hf : f.offset + f.width ≤ 8) (v : Nat) :
    ∃ m', memWrite m f v = .ok m' ∧ Memory.wf m' = true ∧
      ∀ c, Memory.read m' c =
        if f.offset ≤ c ∧ c < f.offset + f.width then byteAt v (c - f.offset) else Memory.read m c :=
  ⟨_, if_pos hf, wf_foldl_write hm _ _ hf, fun c => read_foldl_write m _ v c _⟩

/-- A MemWrite that reaches past the frame faults. -/
theorem memWrite_outside (m : Memory) {f : Field} (hf : ¬f.offset + f.width ≤ 8) (v : Nat) :
    memWrite m f v = .error .writeOutsideFrame := if_neg hf

/-- What an address reads after the fields `fs` have been written in order. -/
def readAfter (fs : List FieldValue) (before : Byte) (c : Nat) : Byte :=
  fs.foldl (fun b f =>
    if f.field.offset ≤ c ∧ c < f.field.offset + f.field.width then byteAt f.value (c - f.field.offset) else b) before

/-- Writing fields inside the frame answers, keeps the canonical form, and leaves what `readAfter` says. -/
theorem writeFields_spec (fs : List FieldValue) (hf : ∀ f ∈ fs, f.field.offset + f.field.width ≤ 8) {m : Memory}
    (hm : Memory.wf m = true) :
    ∃ m', writeFields m fs = .ok m' ∧ Memory.wf m' = true ∧
      ∀ c, Memory.read m' c = readAfter fs (Memory.read m c) c := by
  induction fs generalizing m with
  | nil => exact ⟨m, rfl, hm, fun _ => rfl⟩
  | cons f fs ih =>
    obtain ⟨m₁, h₁, w₁, r₁⟩ := memWrite_spec hm (hf f (by simp)) f.value
    obtain ⟨m₂, h₂, w₂, r₂⟩ := ih (fun g hg => hf g (by simp [hg])) w₁
    refine ⟨m₂, ?_, w₂, fun c => ?_⟩
    · rw [writeFields, h₁]; exact h₂
    · rw [r₂, r₁]; rfl

/-- What a BUILD answers (R100): a canonical frame whose bytes are the opcode's and the fields' over zeros. -/
theorem buildOutputs_spec (op : Byte) (fs : List FieldValue)
    (hf : ∀ f ∈ fs, f.field.offset + f.field.width ≤ 8) :
    ∃ frame, buildOutputs op fs = .ok (Outputs.built frame) ∧ Memory.wf frame = true ∧
      ∀ c, Memory.read frame c = readAfter (⟨fieldOpcode, op.toNat⟩ :: fs) Memory.unlisted c := by
  obtain ⟨m, h, w, r⟩ := writeFields_spec (⟨fieldOpcode, op.toNat⟩ :: fs)
    (by simpa using hf) Memory.wf_nil
  exact ⟨m, by rw [buildOutputs, h]; rfl, w, r⟩

/-! ### Buffers made from bytes -/

theorem Memory.read_ofBytesFrom_lt {bs : List Byte} {a c : Nat} (h : c < a) :
    Memory.read (Memory.ofBytesFrom a bs) c = Memory.unlisted := by
  induction bs generalizing a with
  | nil => rfl
  | cons b bs ih =>
    unfold Memory.ofBytesFrom
    split
    · exact ih (by omega)
    · rw [Memory.read, if_neg (by omega)]; exact ih (by omega)

theorem Memory.read_ofBytesFrom (bs : List Byte) (a k : Nat) :
    Memory.read (Memory.ofBytesFrom a bs) (a + k) = bs.getD k Memory.unlisted := by
  induction bs generalizing a k with
  | nil => simp [Memory.ofBytesFrom]
  | cons b bs ih =>
    unfold Memory.ofBytesFrom
    cases k with
    | zero =>
      split
      · next h => rw [Memory.read_ofBytesFrom_lt (by omega)]; simp [h]
      · simp [Memory.read]
    | succ k =>
      have := ih (a + 1) k
      rw [show a + 1 + k = a + (k + 1) by omega] at this
      split
      · simpa using this
      · rw [Memory.read, if_neg (by omega)]; simpa using this

/-- The buffer made from bytes reads back as those bytes. -/
@[simp] theorem Memory.read_ofBytes (bs : List Byte) (k : Nat) :
    Memory.read (Memory.ofBytes bs) k = bs.getD k Memory.unlisted := by
  simpa [Memory.ofBytes] using Memory.read_ofBytesFrom bs 0 k

theorem Memory.prefixBytes_ofBytes (bs : List Byte) :
    Memory.prefixBytes (Memory.ofBytes bs) bs.length = bs := by
  apply List.ext_getElem
  · simp [Memory.prefixBytes]
  · intro k h₁ h₂; simp [Memory.prefixBytes, h₂]

theorem Memory.wfFrom_ofBytesFrom {bs : List Byte} {a : Nat} (h : a + bs.length ≤ 8) :
    Memory.wfFrom a (Memory.ofBytesFrom a bs) = true := by
  induction bs generalizing a with
  | nil => rfl
  | cons b bs ih =>
    simp only [List.length_cons] at h
    unfold Memory.ofBytesFrom
    split
    · exact Memory.wfFrom_mono (ih (by omega)) (by omega)
    · next hb =>
      simp only [Memory.wfFrom, Bool.and_eq_true, decide_eq_true_eq]
      exact ⟨⟨⟨le_refl _, by simp only [frameLength]; omega⟩, hb⟩, ih (by omega)⟩

/-- A buffer made from at most 8 bytes is canonical. -/
theorem Memory.wf_ofBytes {bs : List Byte} (h : bs.length ≤ 8) : Memory.wf (Memory.ofBytes bs) = true :=
  Memory.wfFrom_ofBytesFrom (by omega)

/-- The bytes of a frame, written out. -/
theorem Memory.bytes_eq (m : Memory) :
    Memory.bytes m = [Memory.read m 0, Memory.read m 1, Memory.read m 2, Memory.read m 3, Memory.read m 4,
      Memory.read m 5, Memory.read m 6, Memory.read m 7] := rfl

end Sys2Proof.Machine
end

