-- ==== Sys2Proof/Laws/Decode.lean ====
section
/-!
SUPPORT. The select word and its two parts, and the reply that a presentation carries.
-/

namespace Sys2Proof

open Machine

@[simp] theorem selIsParse_selWord (k : Bool) (op : Byte) : selIsParse (selWord k op) = k := by
  revert k op; decide +kernel

@[simp] theorem selOpcode_selWord (k : Bool) (op : Byte) : selOpcode (selWord k op) = op := by
  revert k op; decide +kernel

/-- A select word is its kind and its opcode (R60). -/
@[simp] theorem selWord_parts (x : Sel) : selWord (selIsParse x) (selOpcode x) = x := by
  revert x; decide +kernel

@[simp] theorem idle_sel (x : Sel) : (Operation.idle x).sel = x := rfl

@[simp] theorem presentReply_sel (x : Sel) (reply : Reply) : (presentReply x reply).sel = x := by
  cases reply <;> rfl

/-- The reply put on the ports is the reply read from them (R22, R77). -/
theorem presentReply_reply (x : Sel) {reply : Reply} (h : Reply.wf reply = true) :
    (presentReply x reply).reply = reply := by
  cases reply with
  | none => rfl
  | some bytes =>
    have hb : bytes.length < 9 := by simpa [Reply.wf, Nat.lt_succ_iff] using h
    simp [presentReply, Operation.reply, Fin.ofNat, Nat.mod_eq_of_lt hb, Memory.prefixBytes_ofBytes]

/-- Every reply a presentation carries is well formed: at most 8 bytes (R22). -/
theorem Machine.Operation.reply_wf (o : Operation) : Reply.wf o.reply = true := by
  unfold Operation.reply
  split
  · simpa [Reply.wf, Memory.prefixBytes] using Nat.lt_succ_iff.mp o.rxLen.isLt
  · rfl

end Sys2Proof
end

