-- ==== Sys2Proof/Laws/Operands.lean ====
section
/-!
SUPPORT. The ranges of the operand functions, and MemRead where it is defined.
-/

namespace Sys2Proof.Machine

theorem leValue_lt (bs : List Byte) : leValue bs < 256 ^ bs.length := by
  induction bs with
  | nil => simp [leValue]
  | cons b bs ih =>
    have hb := b.isLt
    simp only [leValue, List.length_cons, pow_succ]
    omega

/-- MemRead of a delivered field answers the field's unsigned value, which fits its width (R43). -/
theorem memRead_delivered {bytes : List Byte} {f : Field} (h : f.offset + f.width ≤ bytes.length) :
    memRead bytes f = .ok (leValue ((bytes.drop f.offset).take f.width)) ∧
      leValue ((bytes.drop f.offset).take f.width) < 256 ^ f.width := by
  refine ⟨if_pos h, ?_⟩
  have := leValue_lt ((bytes.drop f.offset).take f.width)
  rwa [List.length_take, List.length_drop, Nat.min_eq_left (by omega)] at this

theorem memRead_undelivered {bytes : List Byte} {f : Field} (h : ¬f.offset + f.width ≤ bytes.length) :
    memRead bytes f = .error .readBeyondReply := if_neg h

theorem wrap_lt (n : Nat) (v : Int) : wrap n v < 2 ^ n := by
  have h : (0 : Int) < 2 ^ n := by positivity
  have := Int.emod_lt_of_pos v h
  have := Int.emod_nonneg v h.ne'
  unfold wrap
  zify
  omega

theorem reduceS_lt (cfg : Config) (n : Nat) (v : Int) : reduceS cfg n v < 2 ^ n := by
  unfold reduceS; split <;> exact wrap_lt _ _

theorem reduceU_lt (cfg : Config) (n : Nat) (v : Int) : reduceU cfg n v < 2 ^ n := by
  unfold reduceU
  split
  · exact wrap_lt _ _
  · have h : (0 : Int) < 2 ^ n := by positivity
    zify
    omega

/-- The signed reading of an N-bit pattern lies in the signed range (R8). -/
theorem sext_range {n v : Nat} (hn : 0 < n) (hv : v < 2 ^ n) :
    -2 ^ (n - 1) ≤ sext n v ∧ sext n v < 2 ^ (n - 1) := by
  obtain ⟨k, rfl⟩ : ∃ k, n = k + 1 := ⟨n - 1, by omega⟩
  simp only [Nat.add_sub_cancel, sext] at *
  have h2 : (2 : Int) ^ (k + 1) = 2 * 2 ^ k := by ring
  zify at hv ⊢
  rw [h2] at hv ⊢
  have hp : (0 : Int) < 2 ^ k := by positivity
  split <;> omega

end Sys2Proof.Machine
end

