-- ==== Sys2Proof/Laws/Parser.lean ====
section
/-!
SUPPORT. What the checks of a PARSE can answer, said once.
-/

namespace Sys2Proof.Machine

variable (cfg : Config) (op : Byte) (req : Nat) (fields : List Byte → Except Fault Outputs)

@[simp] theorem parseReply_none :
    parseReply cfg op req none fields = .ok (Outputs.malformed .absent) := rfl

theorem parseReply_short {bytes : List Byte} (h : bytes.length < required cfg req) :
    parseReply cfg op req (some bytes) fields = .ok (Outputs.malformed .short) := if_pos h

/-- With enough bytes for the opcode field, the echo check answers (R142). -/
theorem echoPasses_delivered {bytes : List Byte} (h : 1 ≤ bytes.length) :
    echoPasses cfg op bytes = .ok (!cfg.checkEcho || leValue (bytes.take 1) == op.toNat) := by
  unfold echoPasses
  cases cfg.checkEcho
  · rfl
  · simp only [if_true]
    rw [(memRead_delivered (f := fieldOpcode) (bytes := bytes) (by simpa using h)).1]
    rfl

/-- Past the length check a PARSE is decided by the echo check alone (R141, R142, R205). -/
theorem parseReply_long {bytes : List Byte} (hreq : 1 ≤ required cfg req) (h : required cfg req ≤ bytes.length) :
    parseReply cfg op req (some bytes) fields =
      if !cfg.checkEcho || leValue (bytes.take 1) == op.toNat then fields bytes
      else .ok (Outputs.malformed .echo) := by
  unfold parseReply
  simp [Nat.not_lt.mpr h, echoPasses_delivered cfg op (le_trans hreq h), bind, Except.bind]

/-- The required length covers every byte the operation reads (R141). -/
theorem le_required (h : req ≤ 8) : req ≤ required cfg req := by
  unfold required; split
  · simpa using h
  · exact le_refl _

/-- Everything the checks and the fields of a PARSE can answer (R141, R142, R205): MALFORMED, or what the fields answer on a
reply that delivers every byte the operation reads. -/
theorem parseReply_answers {covering : Nat} (reply : Reply) (h1 : 1 ≤ covering) (h8 : covering ≤ 8)
    {P : Outputs → Prop} (malformed : ∀ r : Reason, (r = .echo → cfg.checkEcho = true) → P (Outputs.malformed r))
    (read : ∀ bytes : List Byte, covering ≤ bytes.length → ∃ o, fields bytes = .ok o ∧ P o) :
    ∃ o, parseReply cfg op covering reply fields = .ok o ∧ P o := by
  cases reply with
  | none => exact ⟨_, rfl, malformed _ (by simp)⟩
  | some bytes =>
    have hreq := le_required cfg covering h8
    by_cases hs : bytes.length < required cfg covering
    · exact ⟨_, parseReply_short _ _ _ _ hs, malformed _ (by simp)⟩
    · rw [parseReply_long _ _ _ _ (by omega) (by omega)]
      split
      · exact read bytes (by omega)
      · next h => exact ⟨_, rfl, malformed _ fun _ => by simpa using (by simpa using h : _ ∧ _).1⟩

/-- A signed field of delivered bytes answers a value in its signed range (R143). -/
theorem signedField_delivered {bytes : List Byte} {f : Field} (h : f.offset + f.width ≤ bytes.length)
    (hw : 0 < f.width) :
    ∃ v, signedField bytes f = .ok v ∧ v = sext (8 * f.width) (leValue ((bytes.drop f.offset).take f.width)) ∧
      -2 ^ (8 * f.width - 1) ≤ v ∧ v < 2 ^ (8 * f.width - 1) := by
  obtain ⟨e, l⟩ := memRead_delivered h
  exact ⟨_, by rw [signedField, e]; rfl, rfl, sext_range (by omega) (by rwa [pow_mul])⟩

end Sys2Proof.Machine
end

