-- ==== Sys2Proof/Laws/PerInstr.lean ====
section
/-!
SUPPORT. One lemma per constructor of Instr: the presentation of a well-formed operation carries the operation's select
word and a canonical reply buffer (R22, R60, R77).
-/

namespace Sys2Proof.Laws.EncodedForm

open Machine

/-- The family's statement about an operation as it is written. -/
def Statement (i : Instr) : Prop := i.wf = true → (encode i).sel = i.sel ∧ Memory.wf (encode i).rx = true

theorem presentReply_form {sel : Sel} {reply : Reply} (h : Reply.wf reply = true) :
    (presentReply sel reply).sel = sel ∧ Memory.wf (presentReply sel reply).rx = true := by
  cases reply with
  | none => exact ⟨rfl, rfl⟩
  | some bytes => exact ⟨rfl, Memory.wf_ofBytes (by simpa [Reply.wf] using h)⟩

theorem buildA6 (angle : Rat) (dir : RotationDirection) (speed : Int) : Statement (.buildA6 angle dir speed) :=
  fun _ => ⟨rfl, rfl⟩
theorem build95 (angle : Rat) : Statement (.build95 angle) := fun _ => ⟨rfl, rfl⟩
theorem buildA8 (angle : Rat) (dir : RotationDirection) (speed : Int) : Statement (.buildA8 angle dir speed) :=
  fun _ => ⟨rfl, rfl⟩
theorem build92 : Statement .build92 := fun _ => ⟨rfl, rfl⟩
theorem build94 : Statement .build94 := fun _ => ⟨rfl, rfl⟩
theorem build9A : Statement .build9A := fun _ => ⟨rfl, rfl⟩
theorem build9C : Statement .build9C := fun _ => ⟨rfl, rfl⟩
theorem build80 : Statement .build80 := fun _ => ⟨rfl, rfl⟩
theorem build88 : Statement .build88 := fun _ => ⟨rfl, rfl⟩
theorem parse92 (reply : Reply) : Statement (.parse92 reply) := fun h => presentReply_form h
theorem parse94 (reply : Reply) : Statement (.parse94 reply) := fun h => presentReply_form h
theorem parse9A (reply : Reply) : Statement (.parse9A reply) := fun h => presentReply_form h
theorem parse9C (reply : Reply) : Statement (.parse9C reply) := fun h => presentReply_form h
theorem parse95 (reply : Reply) : Statement (.parse95 reply) := fun h => presentReply_form h

end Sys2Proof.Laws.EncodedForm
end

