-- ==== Sys2Proof/Laws/State.lean ====
section
/-!
SUPPORT. One lemma per field per update of State, and what it means that a step completes.
-/

namespace Sys2Proof.Machine

variable (s : State) (o : Outputs)

@[simp] theorem State.finish_cfg : (s.finish o).cfg = s.cfg := rfl
@[simp] theorem State.finish_pending : (s.finish o).pending = s.pending.tail := rfl
@[simp] theorem State.finish_index : (s.finish o).index = s.index + 1 := rfl
@[simp] theorem State.finish_out : (s.finish o).out = o := rfl
@[simp] theorem State.finish_trace : (s.finish o).trace = s.trace ++ [o] := rfl
@[simp] theorem State.finish_run : (s.finish o).run = s.run := rfl

@[simp] theorem State.refuse_cfg : s.refuse.cfg = s.cfg := rfl
@[simp] theorem State.refuse_pending : s.refuse.pending = s.pending.tail := rfl
@[simp] theorem State.refuse_index : s.refuse.index = s.index + 1 := rfl
@[simp] theorem State.refuse_out : s.refuse.out = Outputs.refused := rfl
@[simp] theorem State.refuse_trace : s.refuse.trace = s.trace ++ [Outputs.refused] := rfl
@[simp] theorem State.refuse_run : s.refuse.run = .withoutMeaning := rfl

variable (ops : List Operation)

@[simp] theorem State.present_cfg : (s.present ops).cfg = s.cfg := rfl
@[simp] theorem State.present_pending : (s.present ops).pending = s.pending ++ ops := rfl
@[simp] theorem State.present_index : (s.present ops).index = s.index := rfl
@[simp] theorem State.present_out : (s.present ops).out = s.out := rfl
@[simp] theorem State.present_trace : (s.present ops).trace = s.trace := rfl
@[simp] theorem State.present_run : (s.present ops).run = s.run := rfl

@[simp] theorem State.afterReset_cfg : s.afterReset.cfg = s.cfg := rfl
@[simp] theorem State.afterReset_pending : s.afterReset.pending = s.pending := rfl
@[simp] theorem State.afterReset_index : s.afterReset.index = s.index := rfl
@[simp] theorem State.afterReset_out : s.afterReset.out = Outputs.empty := rfl
@[simp] theorem State.afterReset_trace : s.afterReset.trace = s.trace := rfl
@[simp] theorem State.afterReset_run : s.afterReset.run = s.run := rfl

variable (nbits w : Nat)

@[simp] theorem State.withFetchWord_cfg : (s.withFetchWord nbits w).cfg = s.cfg := rfl
@[simp] theorem State.withFetchWord_pending :
    (s.withFetchWord nbits w).pending = Operation.idle (BitVec.ofNat 9 w) :: s.pending.tail := rfl
@[simp] theorem State.withFetchWord_index : (s.withFetchWord nbits w).index = s.index := rfl
@[simp] theorem State.withFetchWord_out : (s.withFetchWord nbits w).out = s.out := rfl
@[simp] theorem State.withFetchWord_trace : (s.withFetchWord nbits w).trace = s.trace := rfl
@[simp] theorem State.withFetchWord_run : (s.withFetchWord nbits w).run = .meaningful := rfl

@[simp] theorem State.complete_ok : s.complete (.ok o) = .next (s.finish o) := rfl
@[simp] theorem State.complete_error (f : Fault) : s.complete (.error f) = .fault f := rfl

/-- A step completes exactly when the operation has outputs, and then it leaves `finish`. -/
theorem State.complete_eq_next {s s' : State} {e : Except Fault Outputs} :
    s.complete e = .next s' ↔ ∃ o, e = .ok o ∧ s' = s.finish o := by
  cases e <;> simp [State.complete, eq_comm]

/-- A meaning of the form `complete` never refuses. -/
theorem State.complete_ne_refused (e : Except Fault Outputs) (r : Refusal) : s.complete e ≠ .refused r := by
  cases e <;> simp [State.complete]

/-! ### Reading an output port (R25) -/

/-- Reading a port faults exactly where it holds no value. -/
theorem readPort_eq_error {α : Type} {port : OutPort} {v : Option α} :
    readPort port v = .error (.noValue port) ↔ v = none := by
  cases v <;> simp [readPort]

/-- Reading a port answers exactly the value it holds. -/
theorem readPort_eq_ok {α : Type} {port : OutPort} {v : Option α} {a : α} :
    readPort port v = .ok a ↔ v = some a := by
  cases v <;> simp [readPort]

/-! ### Fetching -/

theorem fetch_nil (h : s.pending = []) : fetch s = .stopped .runEnded := by simp [fetch, h]

theorem fetch_cons {s : State} {o : Operation} {rest : List Operation} (h : s.pending = o :: rest)
    (hr : s.run = .meaningful) : fetch s = .operation o := by simp [fetch, h, hr]

theorem fetch_withoutMeaning {s : State} {o : Operation} {rest : List Operation} (h : s.pending = o :: rest)
    (hr : s.run = .withoutMeaning) : fetch s = .refused .runHasNoMeaning := by simp [fetch, h, hr]

end Sys2Proof.Machine
end

