-- ==== Sys2Proof/Tests/Slice0.lean ====
section
/-!
SUPPORT. Tests on fixed values, each expected value taken from the spec's text (95_test_vectors.md, or the rule named), and
for each statement with hypotheses a state and operands that meet them.
-/

namespace Sys2Proof.Tests.Slice0

open Machine

/-! ### Well-formedness: an ill-formed term for each check (R22: `rx_len` in [0, 8]; Ops.lean: the canonical form) -/

/-- Nine bytes, one more than a frame has. -/
def nineBytes : Reply := some [0, 1, 2, 3, 4, 5, 6, 7, 8]

theorem test_wf_refuses_nine_byte_replies :
    (Instr.parse92 nineBytes).wf = false ∧ (Instr.parse94 nineBytes).wf = false ∧
    (Instr.parse9A nineBytes).wf = false ∧ (Instr.parse9C nineBytes).wf = false ∧
    (Instr.parse95 nineBytes).wf = false := by decide

theorem test_wf_accepts_eight_bytes_and_none :
    (Instr.parse92 (some [0x92, 1, 2, 3, 4, 5, 6, 7])).wf = true ∧ (Instr.parse95 none).wf = true := by decide

theorem test_memory_wf_refuses_each_defect :
    Memory.wf [(2, 1), (1, 1)] = false ∧ Memory.wf [(1, 1), (1, 2)] = false ∧ Memory.wf [(8, 1)] = false ∧
    Memory.wf [(3, 0)] = false ∧ Memory.wf [(0, 0xA6), (7, 1)] = true := by decide

theorem test_writing_zero_removes_the_entry : Memory.write [(0, 0xA6), (4, 1)] 4 0 = [(0, 0xA6)] := by decide

/-! ### Decoding: the select words of R61, written bit by bit (kind bit, then the opcode) -/

/-- A presentation whose every operand port holds something. -/
def ports (sel : Sel) : Operation where
  sel := sel
  angle := 5
  dir := .counterClockwise
  speed := 7
  rxPresent := true
  rxLen := 2
  rx := [(0, 0x11), (1, 0x22), (2, 0x33)]

theorem test_decode_build_a6 : decode (ports 0b0_1010_0110) = .ok (.buildA6 5 .counterClockwise 7) := by decide
theorem test_decode_build_95 : decode (ports 0b0_1001_0101) = .ok (.build95 5) := by decide
theorem test_decode_build_a8 : decode (ports 0b0_1010_1000) = .ok (.buildA8 5 .counterClockwise 7) := by decide
theorem test_decode_build_92 : decode (ports 0b0_1001_0010) = .ok .build92 := by decide
theorem test_decode_build_94 : decode (ports 0b0_1001_0100) = .ok .build94 := by decide
theorem test_decode_build_9a : decode (ports 0b0_1001_1010) = .ok .build9A := by decide
theorem test_decode_build_9c : decode (ports 0b0_1001_1100) = .ok .build9C := by decide
theorem test_decode_build_80 : decode (ports 0b0_1000_0000) = .ok .build80 := by decide
theorem test_decode_build_88 : decode (ports 0b0_1000_1000) = .ok .build88 := by decide
theorem test_decode_parse_92 : decode (ports 0b1_1001_0010) = .ok (.parse92 (some [0x11, 0x22])) := by decide
theorem test_decode_parse_94 : decode (ports 0b1_1001_0100) = .ok (.parse94 (some [0x11, 0x22])) := by decide
theorem test_decode_parse_9a : decode (ports 0b1_1001_1010) = .ok (.parse9A (some [0x11, 0x22])) := by decide
theorem test_decode_parse_9c : decode (ports 0b1_1001_1100) = .ok (.parse9C (some [0x11, 0x22])) := by decide
theorem test_decode_parse_95 : decode (ports 0b1_1001_0101) = .ok (.parse95 (some [0x11, 0x22])) := by decide

/-- R75: a BUILD outside the nine opcodes and a PARSE of 0xA6 are refused by name. -/
theorem test_decode_refuses_by_name :
    decode (ports 0x0A7) = .error (.noBuilder 0xA7) ∧ decode (ports 0x1A6) = .error (.noParser 0xA6) := by decide

theorem test_encode_selects : (encode (.buildA8 10 .clockwise 1)).sel = 0x0A8 ∧ (encode (.parse9C none)).sel = 0x19C := by
  decide

/-! ### One operation on a fresh block -/

/-- The outputs of one operation under a configuration. -/
def outputsOf (cfg : Config) (i : Instr) : Option Outputs :=
  match exec i (State.resetWith cfg) with
  | .next s => some s.out
  | .fault _ => none
  | .refused _ => none

/-- The eight bytes of the frame an operation builds. -/
def frameOf (cfg : Config) (i : Instr) : Option (List Byte) := do
  let o ← outputsOf cfg i
  let frame ← o.tx
  pure (Memory.bytes frame)

/-- The other width reduction. -/
def saturating : Config := { specConfig with widthReduction := .saturate }

/-- The echo check on. -/
def echoing : Config := { specConfig with checkEcho := true }

/-- S1. -/
theorem test_build_a6_source_example :
    frameOf specConfig (.buildA6 180 .clockwise 30) = some [0xA6, 0x00, 0x1E, 0x00, 0x50, 0x46, 0x00, 0x00] := by
  decide +kernel
/-- Table 2.2: -21474836.49, CCW, 1, Saturate. -/
theorem test_build_a6_saturates :
    frameOf saturating (.buildA6 (-2147483649 / 100) .counterClockwise 1) =
      some [0xA6, 0x01, 0x01, 0x00, 0x00, 0x00, 0x00, 0x80] := by decide +kernel
/-- Table 2.3: -90. -/
theorem test_build_95_negative :
    frameOf specConfig (.build95 (-90)) = some [0x95, 0x00, 0x00, 0x00, 0xD8, 0xDC, 0xFF, 0xFF] := by decide +kernel
/-- P3 step 5: 12.345 rounds to 1234 under HalfEven. -/
theorem test_build_95_half_even :
    frameOf specConfig (.build95 (12345 / 1000)) = some [0x95, 0x00, 0x00, 0x00, 0xD2, 0x04, 0x00, 0x00] := by
  decide +kernel
/-- S3. -/
theorem test_build_a8_source_example :
    frameOf specConfig (.buildA8 10 .counterClockwise 100) = some [0xA8, 0x00, 0x64, 0x00, 0x18, 0xFC, 0xFF, 0xFF] := by
  decide +kernel
/-- Table 2.4: 90, CW, 70000, Wrap. -/
theorem test_build_a8_wraps_speed :
    frameOf specConfig (.buildA8 90 .clockwise 70000) = some [0xA8, 0x00, 0x70, 0x11, 0x28, 0x23, 0x00, 0x00] := by
  decide +kernel
/-- Table 2.5. -/
theorem test_bare_builds :
    frameOf specConfig .build92 = some [0x92, 0, 0, 0, 0, 0, 0, 0] ∧
    frameOf specConfig .build94 = some [0x94, 0, 0, 0, 0, 0, 0, 0] ∧
    frameOf specConfig .build9A = some [0x9A, 0, 0, 0, 0, 0, 0, 0] ∧
    frameOf specConfig .build9C = some [0x9C, 0, 0, 0, 0, 0, 0, 0] ∧
    frameOf specConfig .build80 = some [0x80, 0, 0, 0, 0, 0, 0, 0] ∧
    frameOf specConfig .build88 = some [0x88, 0, 0, 0, 0, 0, 0, 0] := by decide +kernel
/-- S2. -/
theorem test_parse_92_source_example :
    outputsOf specConfig (.parse92 (some [0x92, 0xFF, 0xFF, 0xFF, 0xFF, 0xFF, 0xFF, 0xFF])) =
      some { status := some .ok, mtCnt := some (-1), mtDeg := some (-1 / 100) } := by decide +kernel
/-- Table 2.6, last row. -/
theorem test_parse_92_echo :
    outputsOf echoing (.parse92 (some [0x94, 1, 0, 0, 0, 0, 0, 0])) =
      some { status := some .malformed, reason := some .echo } := by decide +kernel
/-- Table 2.7: unsigned. -/
theorem test_parse_94_unsigned :
    outputsOf specConfig (.parse94 (some [0x94, 0, 0, 0, 0xFF, 0xFF, 0xFF, 0xFF])) =
      some { status := some .ok, stCnt := some 4294967295, stDeg := some (4294967295 / 100) } := by decide +kernel
/-- Table 2.7: 7 bytes. -/
theorem test_parse_94_short :
    outputsOf specConfig (.parse94 (some [0x94, 0, 0, 0, 0x28, 0x23, 0])) =
      some { status := some .malformed, reason := some .short } := by decide +kernel
/-- S4. -/
theorem test_parse_9a_source_example :
    outputsOf specConfig (.parse9A (some [0x9A, 0x19, 0x0A, 0x00, 0x00, 0x00, 0x00, 0x00])) =
      some { status := some .ok, tempC := some 25, voltCnt := some 10, voltV := some (10 / 100), powerRaw := some 0,
             powerOn := some true } := by decide +kernel
/-- Table 2.8: the signs and the power byte. -/
theorem test_parse_9a_signs :
    outputsOf specConfig (.parse9A (some [0x9A, 0xFF, 0x00, 0x80, 0x00, 0x00, 0x10, 0x00])) =
      some { status := some .ok, tempC := some 255, voltCnt := some (-32768), voltV := some (-32768 / 100),
             powerRaw := some 0x10, powerOn := some false } := by decide +kernel
/-- Table 2.9: a 6-byte reply. -/
theorem test_parse_9c_six_bytes :
    outputsOf specConfig (.parse9C (some [0x9C, 0x55, 0x66, 0x77, 0xFF, 0xFF])) =
      some { status := some .ok, speedDps := some (-1) } := by decide +kernel
/-- Table 2.9: priority of Absent over Echo (R205). -/
theorem test_parse_9c_absent_first :
    outputsOf echoing (.parse9C none) = some { status := some .malformed, reason := some .absent } := by decide +kernel
/-- Table 2.10. -/
theorem test_parse_95_presence :
    outputsOf specConfig (.parse95 (some [0x11, 0x22])) = some { status := some .ok, ack := some true } ∧
    outputsOf specConfig (.parse95 (some [])) = some { status := some .ok, ack := some false } := by decide +kernel

/-- Table 2.1: four rows under the four modes. -/
theorem test_rounding_table :
    [RoundMode.halfEven, .halfAway, .towardZero, .floor].map (roundTo · (1 / 2)) = [0, 1, 0, 0] ∧
    [RoundMode.halfEven, .halfAway, .towardZero, .floor].map (roundTo · (-1 / 2)) = [0, -1, 0, -1] ∧
    [RoundMode.halfEven, .halfAway, .towardZero, .floor].map (roundTo · (3 / 2)) = [2, 2, 1, 1] ∧
    [RoundMode.halfEven, .halfAway, .towardZero, .floor].map (roundTo · (-100 / 3)) = [-33, -33, -33, -34] := by
  decide +kernel

/-- P4 step 1: a `sel` that names no operation (R204). -/
theorem test_step_refuses_unlisted_select :
    (match step (State.reset.present [ports 0x1A6]) with
     | .next s => s.out.status == some .refused && s.out.reason == none && s.run == .withoutMeaning
     | _ => false) = true := by decide +kernel

/-! ### Witnesses: for each statement with hypotheses, something that meets them -/

/-- A run with one operation presented. -/
def oneOperation (i : Instr) : State := State.reset.present [encode i]

theorem witness_step_keeps_invariant :
    (oneOperation .build92).Inv ∧ ∃ s', step (oneOperation .build92) = .next s' := by
  exact ⟨⟨rfl, fun _ h => (List.not_mem_nil h).elim, .inl rfl, by decide, by decide⟩, _, rfl⟩

theorem witness_step_runs_decoded :
    (oneOperation .build88).pending = encode .build88 :: [] ∧ (oneOperation .build88).run = .meaningful ∧
    decode (encode .build88) = .ok .build88 := by decide

theorem witness_fetch_word : decodeTableWord 16 0x19A = some (.parse9A none) := by decide

theorem witness_unlisted_select :
    (State.reset.present [ports 0x1FF]).pending = ports 0x1FF :: [] ∧
    (State.reset.present [ports 0x1FF]).run = .meaningful ∧ (ports 0x1FF).sel ∉ tableSelects := by decide

theorem witness_run_stops :
    State.reset.pending = [] ∧
    (State.reset.refuse.present [ports 0x092]).pending = ports 0x092 :: [] ∧
    (State.reset.refuse.present [ports 0x092]).run = .withoutMeaning := by decide

theorem witness_step_advances : ∃ s', step (oneOperation (.parse95 none)) = .next s' := ⟨_, rfl⟩

theorem witness_presented_completes :
    (State.reset.present [ports 0x000]).pending = ports 0x000 :: [] ∧
    (State.reset.present [ports 0x000]).run = .meaningful := by decide

/-- P1, its four operations. -/
def readAnglesRun : List Instr :=
  [.build92, .parse92 (some [0x92, 0xF0, 0xD8, 0xFF, 0xFF, 0xFF, 0xFF, 0xFF]), .build94,
    .parse94 (some [0x94, 0x00, 0x00, 0x00, 0x90, 0x65, 0x00, 0x00])]

theorem witness_run_performs_the_list :
    (∀ i ∈ readAnglesRun, i.wf = true) ∧ (State.reset.present (readAnglesRun.map encode)).run = .meaningful ∧
    (State.reset.present (readAnglesRun.map encode)).pending = readAnglesRun.map encode := by decide

theorem witness_same_configuration : State.reset.cfg = (oneOperation .build94).cfg := by decide

theorem witness_exec_answers :
    (∃ s', exec .build9C State.reset = .next s') ∧
    (∃ s', exec (.parse92 (some [0x92])) State.reset = .next s' ∧ s'.out.status = some .malformed) ∧
    (∃ s', exec (.parse95 none) State.reset = .next s' ∧ s'.out.status = some .ok) ∧
    Instr.build9C.isParse = false := by
  exact ⟨⟨_, rfl⟩, ⟨_, rfl, rfl⟩, ⟨_, rfl, rfl⟩, rfl⟩

theorem witness_ports_written :
    ∃ a b c d, exec (.parse92 (some [0, 0, 0, 0, 0, 0, 0, 1])) State.reset = .next a ∧ a.out.mtCnt ≠ none ∧
      exec (.parse94 (some [0, 0, 0, 0, 0, 0, 0, 1])) State.reset = .next b ∧ b.out.stCnt ≠ none ∧
      exec (.parse9A (some [0, 0, 0, 0, 0, 0, 0])) State.reset = .next c ∧ c.out.powerOn ≠ none ∧
      exec (.parse9C (some [0, 0, 0, 0, 0, 0])) State.reset = .next d ∧ d.out.speedDps ≠ none :=
  ⟨_, _, _, _, rfl, by decide, rfl, by decide, rfl, by decide, rfl, by decide⟩

theorem witness_decode_encode :
    (Instr.parse92 (some [0, 1, 2, 3, 4, 5, 6, 7])).wf = true ∧ (Instr.parse95 (some [])).wf = true := by decide

theorem witness_decoded_select : decode (ports 0x194) = .ok (.parse94 (some [0x11, 0x22])) := by decide

/-- The same presentation with every port that PARSE.9C does not name changed: the builder's, bytes 0 to 3, and the bytes
past `rx_len`. -/
def unnamedChanged (o : Operation) : Operation :=
  { o with angle := -1, dir := .clockwise, speed := 0, rx := [(0, 0xEE), (1, 0xEE), (4, 0x2C), (5, 0x01), (7, 0x77)] }

/-- A 6-byte status-2 reply. -/
def sixByteReply : Operation :=
  { ports 0x19C with rxLen := 6, rx := [(0, 0x9C), (4, 0x2C), (5, 0x01)] }

theorem witness_unnamed_ports :
    sixByteReply.agreeNamed specConfig (unnamedChanged sixByteReply) ∧ sixByteReply ≠ unnamedChanged sixByteReply := by
  refine ⟨⟨rfl, by decide, by decide, fun h => absurd h (by decide), fun h => absurd h (by decide),
    fun h => absurd h (by decide), fun _ => ⟨rfl, fun _ => ⟨rfl, fun h => absurd h (by decide), ?_⟩⟩,
    fun h => absurd h (by decide)⟩, by decide⟩
  intro f hf k h1 h2 _
  simp only [List.mem_singleton] at hf
  subst hf
  simp only [fieldReplySpeed] at h1 h2
  obtain rfl | rfl : k = 4 ∨ k = 5 := by omega
  · rfl
  · rfl

theorem witness_mem_read_boundary :
    fieldMultiTurn.offset + fieldMultiTurn.width ≤ ([0, 1, 2, 3, 4, 5, 6, 7] : List Byte).length ∧
    ([0, 1, 2, 3, 4, 5, 6] : List Byte).length < fieldMultiTurn.offset + fieldMultiTurn.width := by decide

theorem witness_mem_write_boundary :
    Memory.wf [(0, 0xA6), (7, 0x01)] = true ∧ fieldCommandAngle.offset + fieldCommandAngle.width ≤ 8 ∧
    256 ^ 4 - 1 < 256 ^ fieldCommandAngle.width ∧ 8 < (Field.mk 5 4).offset + (Field.mk 5 4).width := by decide

theorem witness_rounding : RoundMode.halfAway ≠ .floor ∧ (0 : Rat) ≤ 1 / 2 ∧ (-1 / 2 : Rat) < 0 ∧
    |(1 / 2 : Rat) - roundTo .halfEven (1 / 2)| = 1 / 2 ∧ |(1 / 2 : Rat) - roundTo .halfAway (1 / 2)| = 1 / 2 := by
  decide +kernel

theorem witness_reduction_ranges :
    (0 < 32) ∧ (-2 ^ (32 - 1) ≤ (-2147483648 : Int)) ∧ ((2147483647 : Int) ≤ 2 ^ (32 - 1) - 1) ∧
    ((65535 : Int) ≤ 2 ^ 16 - 1) ∧ specConfig.widthReduction = .wrap ∧ saturating.widthReduction = .saturate ∧
    ((2 : Int) ^ (32 - 1) ≤ 2147483648) ∧ ((-2147483649 : Int) < -2 ^ (32 - 1)) ∧ ((2 : Int) ^ 16 ≤ 65536) ∧
    ((-1 : Int) < 0) := by decide

theorem witness_builders :
    Instr.build80.isParse = false ∧ (Instr.buildA6 (-1) .counterClockwise (-1)).isParse = false := by decide

theorem witness_increment :
    (-1000 : Int) = (match RotationDirection.counterClockwise with
      | .clockwise => scale State.reset.cfg 10
      | .counterClockwise => -scale State.reset.cfg 10) := by decide +kernel

theorem witness_command_angle_range :
    (-2 ^ 31 ≤ (-2147483648 : Int)) ∧ ((2147483647 : Int) ≤ 2 ^ 31 - 1) ∧ (-2 ^ 31 < (-2147483647 : Int)) := by decide

theorem witness_direction_folds : State.reset.cfg.roundMode ≠ .floor := by decide

theorem witness_speed_range : (0 : Int) ≤ 0 ∧ (0 : Int) ≤ 65535 ∧ (65535 : Int) ≤ 65535 := by decide

theorem witness_short_replies :
    ([0, 0, 0, 0, 0, 0, 0] : List Byte).length < 8 ∧
    ([0, 0, 0, 0, 0, 0] : List Byte).length < (if State.reset.cfg.requireFullFrame then 8 else 7) ∧
    ([0, 0, 0, 0, 0] : List Byte).length < (if State.reset.cfg.requireFullFrame then 8 else 6) := by decide

/-- S2 for the 56-bit count, table 2.7 for the 32-bit one, tables 2.8 and 2.9 for the 16-bit ones. -/
theorem witness_reply_fields :
    (72057594037927935 : Int) = (0xFF : Byte).toNat + 256 * (0xFF : Byte).toNat + 256 ^ 2 * (0xFF : Byte).toNat +
      256 ^ 3 * (0xFF : Byte).toNat + 256 ^ 4 * (0xFF : Byte).toNat + 256 ^ 5 * (0xFF : Byte).toNat +
      256 ^ 6 * (0xFF : Byte).toNat ∧
    (-1 : Int) = (if (0xFF : Byte).toNat < 0x80 then 72057594037927935 else 72057594037927935 - 2 ^ 56) ∧
    9000 = (0x28 : Byte).toNat + 256 * (0x23 : Byte).toNat + 256 ^ 2 * (0x00 : Byte).toNat +
      256 ^ 3 * (0x00 : Byte).toNat ∧
    (32768 : Int) = (0x00 : Byte).toNat + 256 * (0x80 : Byte).toNat ∧
    (-32768 : Int) = (if (0x80 : Byte).toNat < 0x80 then 32768 else 32768 - 2 ^ 16) ∧
    State.reset.cfg.requireFullFrame = false ∧ 1 ≤ ([0] : List Byte).length ∧ 2 ≤ ([0, 0] : List Byte).length := by
  decide

theorem witness_signed_counts :
    (-2 ^ 55 ≤ (-36028797018963968 : Int)) ∧ ((36028797018963967 : Int) ≤ 2 ^ 55 - 1) ∧
    (-32768 ≤ (-32768 : Int)) ∧ ((32767 : Int) ≤ 32767) := by decide

theorem witness_echo :
    ([1, 0, 0, 0, 0, 0, 0] : List Byte).length = 7 ∧ (State.resetWith echoing).cfg.checkEcho = true ∧
    State.reset.cfg.checkEcho = false ∧ (0x95 : Byte) ≠ 0x92 ∧ (0x95 : Byte) ≠ 0x94 ∧ (0x95 : Byte) ≠ 0x9A ∧
    (0x95 : Byte) ≠ 0x9C := by decide

theorem witness_zero_extension : (0x80 : Nat) ≤ (0x80 : Byte).toNat ∧ (0x7F : Byte).toNat < 0x80 := by decide

theorem witness_toggle :
    (∃ o, outParse9A specConfig none = .ok o ∧ o.status = some .malformed) ∧
    (∃ o, outParse9A specConfig (some [0x9A, 0x19, 0x0A, 0, 0, 0, 0, 0]) = .ok o ∧ o.powerOn = some true) ∧
    ∃ o, outParse9A specConfig (some [0x9A, 0x20, 0xB0, 4, 0, 0, 0x10, 0]) = .ok o ∧ o.powerOn = some false :=
  ⟨⟨_, rfl, rfl⟩, ⟨_, rfl, by decide⟩, ⟨_, rfl, by decide⟩⟩

theorem witness_staged_and_unstaged :
    (Session.mk 1 [2] (some ⟨181 / 2, .counterClockwise, 200⟩)).staged = some ⟨181 / 2, .counterClockwise, 200⟩ ∧
    (Session.mk 1 [2] none).staged = none := ⟨rfl, rfl⟩

theorem witness_unwritten_port :
    (∃ s', exec (.parse9A (some [0x9A])) State.reset = .next s' ∧ s'.out.HoldsNoValue .powerRaw ∧
      ¬s'.out.HoldsNoValue .reason) ∧
    Instr.parse9C none ∈ [Instr.parse92 none, .parse94 none, .parse9A none, .parse9C none] ∧
    OutPort.voltV ≠ .status ∧ OutPort.voltV ≠ .reason :=
  ⟨⟨_, rfl, rfl, by simp [Outputs.HoldsNoValue, State.finish, Outputs.malformed]⟩, by decide, by decide, by decide⟩

end Sys2Proof.Tests.Slice0
end

/-!
What one operation answers, said once: `exec` is `State.complete` of outputs that the configuration and the operation alone
determine (00_scope.md R3), and those outputs have the shape that the operation's rule gives them (R100, R150 to R154).
-/

namespace Sys2Proof.Machine

/-- The outputs of an operation as a function of the configuration and the operation; `exec_eq_complete` ties it to `exec`. -/
def instrOutputs (cfg : Config) : Instr → Except Fault Outputs
  | .buildA6 angle dir speed => packPos cfg dir speed (scale cfg angle)
  | .build95 angle => packOfs cfg (scale cfg angle)
  | .buildA8 angle dir speed => packInc cfg speed (signedIncrement dir (scale cfg angle))
  | .build92 => buildOutputs opMultiTurn []
  | .build94 => buildOutputs opSingleTurn []
  | .build9A => buildOutputs opStatus1 []
  | .build9C => buildOutputs opStatus2 []
  | .build80 => buildOutputs opPowerOff []
  | .build88 => buildOutputs opPowerRun []
  | .parse92 reply => outParse92 cfg reply
  | .parse94 reply => outParse94 cfg reply
  | .parse9A reply => outParse9A cfg reply
  | .parse9C reply => outParse9C cfg reply
  | .parse95 reply => outParse95 reply

/-- Of the state, `exec` reads the configuration only; what it does to the rest is `State.complete` (R3, R24). -/
theorem exec_eq_complete (i : Instr) (s : State) : exec i s = s.complete (instrOutputs s.cfg i) := by
  cases i <;> rfl

/-! ### The shapes of the answers -/

/-- A BUILD's answer: OK and a canonical frame (R100). -/
def Outputs.IsBuilt (o : Outputs) : Prop := ∃ frame, o = Outputs.built frame ∧ Memory.wf frame = true

/-- The answer of a PARSE whose reply fails a check; Echo only under `CHECK_ECHO` (R141, R142, R202). -/
def Outputs.IsMalformed (cfg : Config) (o : Outputs) : Prop :=
  ∃ r, o = Outputs.malformed r ∧ (r = .echo → cfg.checkEcho = true)

/-- What an operation can answer: the outputs its rule writes, each value in its port's range, or for a checked PARSE a
MALFORMED reply. -/
def IsAnswer (cfg : Config) (i : Instr) (o : Outputs) : Prop :=
  match i with
  | .parse92 _ => o.IsMalformed cfg ∨ ∃ c, o = Outputs.multiTurn c ∧ -2 ^ 55 ≤ c ∧ c < 2 ^ 55
  | .parse94 _ => o.IsMalformed cfg ∨ ∃ c, o = Outputs.singleTurn c ∧ c < 2 ^ 32
  | .parse9A _ => o.IsMalformed cfg ∨
      ∃ t v p, o = Outputs.status1 t v p (powerFlag cfg p) ∧ t < 2 ^ 8 ∧ -2 ^ 15 ≤ v ∧ v < 2 ^ 15
  | .parse9C _ => o.IsMalformed cfg ∨ ∃ v, o = Outputs.status2 v ∧ -2 ^ 15 ≤ v ∧ v < 2 ^ 15
  | .parse95 reply => o = Outputs.presence (acknowledged reply)
  | .buildA6 _ _ _ | .build95 _ | .buildA8 _ _ _ | .build92 | .build94 | .build9A | .build9C | .build80 | .build88 =>
      o.IsBuilt

/-! ### Every operation answers -/

/-- A BUILD whose fields lie inside the frame answers a canonical frame. -/
theorem buildOutputs_isBuilt (op : Byte) (fs : List FieldValue)
    (hf : ∀ f ∈ fs, f.field.offset + f.field.width ≤ 8) :
    ∃ o, buildOutputs op fs = .ok o ∧ o.IsBuilt := by
  obtain ⟨frame, h, hwf, -⟩ := buildOutputs_spec op fs hf
  exact ⟨_, h, frame, rfl, hwf⟩

/-- A checked PARSE answers MALFORMED, or what its fields answer on the bytes that it reads (R141, R142). -/
theorem parseReply_isAnswer (cfg : Config) (op : Byte) {covering : Nat} (reply : Reply)
    {fields : List Byte → Except Fault Outputs} {P : Outputs → Prop} (h1 : 1 ≤ covering) (h8 : covering ≤ 8)
    (read : ∀ bytes : List Byte, covering ≤ bytes.length → ∃ o, fields bytes = .ok o ∧ P o) :
    ∃ o, parseReply cfg op covering reply fields = .ok o ∧ (o.IsMalformed cfg ∨ P o) :=
  parseReply_answers cfg op fields reply h1 h8 (fun r hr => .inl ⟨r, rfl, hr⟩) fun bytes hb => by
    obtain ⟨o, ho, hP⟩ := read bytes hb
    exact ⟨o, ho, .inr hP⟩

theorem outParse92_isAnswer (cfg : Config) (reply : Reply) :
    ∃ o, outParse92 cfg reply = .ok o ∧ IsAnswer cfg (.parse92 reply) o := by
  refine parseReply_isAnswer cfg opMultiTurn reply (by decide) (by decide) fun bytes hb => ?_
  obtain ⟨v, hv, -, hlo, hhi⟩ := signedField_delivered (f := fieldMultiTurn) hb (by decide)
  exact ⟨_, by rw [hv]; rfl, v, rfl, hlo, hhi⟩

theorem outParse94_isAnswer (cfg : Config) (reply : Reply) :
    ∃ o, outParse94 cfg reply = .ok o ∧ IsAnswer cfg (.parse94 reply) o := by
  refine parseReply_isAnswer cfg opSingleTurn reply (by decide) (by decide) fun bytes hb => ?_
  obtain ⟨h, hlt⟩ := memRead_delivered (f := fieldSingleTurn) hb
  exact ⟨_, by rw [h]; rfl, _, rfl, hlt⟩

theorem outParse9A_isAnswer (cfg : Config) (reply : Reply) :
    ∃ o, outParse9A cfg reply = .ok o ∧ IsAnswer cfg (.parse9A reply) o := by
  refine parseReply_isAnswer cfg opStatus1 reply (by decide) (by decide) fun bytes hb => ?_
  obtain ⟨ht, htlt⟩ := memRead_delivered (f := fieldTemperature) (le_trans (by decide) hb)
  obtain ⟨v, hv, -, hlo, hhi⟩ := signedField_delivered (f := fieldVoltage) (le_trans (by decide) hb) (by decide)
  obtain ⟨hp, -⟩ := memRead_delivered (f := fieldPower) hb
  exact ⟨_, by rw [ht, hv, hp]; rfl, _, v, _, rfl, htlt, hlo, hhi⟩

theorem outParse9C_isAnswer (cfg : Config) (reply : Reply) :
    ∃ o, outParse9C cfg reply = .ok o ∧ IsAnswer cfg (.parse9C reply) o := by
  refine parseReply_isAnswer cfg opStatus2 reply (by decide) (by decide) fun bytes hb => ?_
  obtain ⟨v, hv, -, hlo, hhi⟩ := signedField_delivered (f := fieldReplySpeed) hb (by decide)
  exact ⟨_, by rw [hv]; rfl, v, rfl, hlo, hhi⟩

/-- No operation faults: each has outputs, of the shape its rule gives (R106, R141). -/
theorem instrOutputs_isAnswer (cfg : Config) (i : Instr) :
    ∃ o, instrOutputs cfg i = .ok o ∧ IsAnswer cfg i o := by
  cases i with
  | parse92 reply => exact outParse92_isAnswer cfg reply
  | parse94 reply => exact outParse94_isAnswer cfg reply
  | parse9A reply => exact outParse9A_isAnswer cfg reply
  | parse9C reply => exact outParse9C_isAnswer cfg reply
  | parse95 reply => exact ⟨_, rfl, rfl⟩
  | buildA6 | build95 | buildA8 | build92 | build94 | build9A | build9C | build80 | build88 =>
    exact buildOutputs_isBuilt _ _ (by simp)

/-- In every state of a configuration an operation completes with the same outputs, of the shape its rule gives (R3). -/
theorem exec_completes (cfg : Config) (i : Instr) :
    ∃ o, IsAnswer cfg i o ∧ ∀ s : State, s.cfg = cfg → exec i s = .next (s.finish o) := by
  obtain ⟨o, ho, hans⟩ := instrOutputs_isAnswer cfg i
  refine ⟨o, hans, fun s hs => ?_⟩
  rw [exec_eq_complete, hs, ho, State.complete_ok]

/-- Settles O12: the outputs that `exec` gives in every state of the configuration serve both states. -/
theorem outputsAreAFunctionOfInputs : Obligations.OutputsAreAFunctionOfInputs := by
  intro i s t hcfg
  obtain ⟨o, -, hexec⟩ := exec_completes t.cfg i
  exact ⟨o, hexec s hcfg, hexec t rfl⟩

end Sys2Proof.Machine

/-!
What one step can do, said once (10_state.md R24, 60_exceptions.md R204, 70_reset_and_hazards.md R249), and what follows for
the state: reset and every step keep `State.Inv`, and each output port is written by its own operation only (R23, R25).
-/

namespace Sys2Proof.Machine

/-! ### What a step can do -/

/-- Settles O5: in a run that has a meaning, `fetch` hands the presentation at the head of the list to `exec`. -/
theorem stepRunsDecodedOperation : Obligations.StepRunsDecodedOperation := by
  intro s o rest i hpending hrun hdecode
  simp only [step, fetch_cons hpending hrun, hdecode]

/-- A `sel` that names no operation is refused (R204). -/
theorem step_of_decode_error {s : State} {o : Operation} {rest : List Operation} {e : Reject}
    (hpending : s.pending = o :: rest) (hrun : s.run = .meaningful) (hdecode : decode o = .error e) :
    step s = .next s.refuse := by
  simp only [step, fetch_cons hpending hrun, hdecode]

/-- After a refused operation nothing presented is performed (R249). -/
theorem step_of_withoutMeaning {s : State} {o : Operation} {rest : List Operation} (hpending : s.pending = o :: rest)
    (hrun : s.run = .withoutMeaning) : step s = .refused .runHasNoMeaning := by
  simp only [step, fetch_withoutMeaning hpending hrun]

/-- An operation that completes leaves the outputs of its rule. -/
theorem exec_eq_next {i : Instr} {s s' : State} (h : exec i s = .next s') :
    ∃ o, IsAnswer s.cfg i o ∧ s' = s.finish o := by
  obtain ⟨o, hans, hexec⟩ := exec_completes s.cfg i
  rw [hexec s rfl] at h
  exact ⟨o, hans, by injection h with h; exact h.symm⟩

/-- A step that answers a next state found a presentation in a run with a meaning, and either performed the operation that
it decodes to or refused it. -/
theorem step_cases {s s' : State} (h : step s = .next s') :
    ∃ p rest, s.pending = p :: rest ∧ s.run = .meaningful ∧
      ((∃ i o, decode p = .ok i ∧ IsAnswer s.cfg i o ∧ s' = s.finish o) ∨
        ∃ e, decode p = .error e ∧ s' = s.refuse) := by
  cases hp : s.pending with
  | nil => simp [step, fetch_nil s hp] at h
  | cons p rest =>
    cases hr : s.run with
    | withoutMeaning => simp [step_of_withoutMeaning hp hr] at h
    | meaningful =>
      refine ⟨p, rest, rfl, rfl, ?_⟩
      cases hd : decode p with
      | ok i =>
        rw [stepRunsDecodedOperation s p rest i hp hr hd] at h
        obtain ⟨o, hans, rfl⟩ := exec_eq_next h
        exact .inl ⟨i, o, rfl, hans, rfl⟩
      | error e =>
        rw [step_of_decode_error hp hr hd] at h
        injection h with h
        exact .inr ⟨e, rfl, h.symm⟩

/-- Settles O9: both ways a step can end, by the field rules of `finish` and `refuse`. -/
theorem stepAdvancesTheRun : Obligations.StepAdvancesTheRun := by
  intro s s' h
  obtain ⟨p, rest, -, -, ⟨i, o, -, -, rfl⟩ | ⟨e, -, rfl⟩⟩ := step_cases h
  · exact ⟨rfl, rfl, rfl, rfl, .inl rfl⟩
  · exact ⟨rfl, rfl, rfl, rfl, .inr rfl⟩

/-! ### The invariant -/

/-- What an operation answers has one of the legal shapes (R23). -/
theorem IsAnswer.legal {cfg : Config} {i : Instr} {o : Outputs} (h : IsAnswer cfg i o) : o.Legal cfg := by
  cases i with
  | parse92 _ => exact .inr (h.imp_right fun hmt => .inr (.inl hmt))
  | parse94 _ => exact .inr (h.imp_right fun hst => .inr (.inr (.inl hst)))
  | parse9A _ => exact .inr (h.imp_right fun hs1 => .inr (.inr (.inr (.inl hs1))))
  | parse9C _ => exact .inr (h.imp_right fun hs2 => .inr (.inr (.inr (.inr (.inl hs2)))))
  | parse95 _ => exact .inr (.inr (.inr (.inr (.inr (.inr (.inr ⟨_, h⟩))))))
  | buildA6 | build95 | buildA8 | build92 | build94 | build9A | build9C | build80 | build88 => exact .inr (.inr (.inl h))

/-- An operation that is performed answers OK or MALFORMED (R200). -/
theorem IsAnswer.status_eq {cfg : Config} {i : Instr} {o : Outputs} (h : IsAnswer cfg i o) :
    o.status = some .ok ∨ o.status = some .malformed := by
  cases i with
  | parse92 _ | parse94 _ | parse9C _ =>
    obtain ⟨r, rfl, -⟩ | ⟨v, rfl, -⟩ := h
    · exact .inr rfl
    · exact .inl rfl
  | parse9A _ =>
    obtain ⟨r, rfl, -⟩ | ⟨t, v, p, rfl, -⟩ := h
    · exact .inr rfl
    · exact .inl rfl
  | parse95 _ => exact .inl (h ▸ rfl)
  | buildA6 | build95 | buildA8 | build92 | build94 | build9A | build9C | build80 | build88 =>
    obtain ⟨frame, rfl, -⟩ := h
    exact .inl rfl

/-- REFUSED is no operation's answer (R200, R204). -/
theorem IsAnswer.ne_refused {cfg : Config} {i : Instr} {o : Outputs} (h : IsAnswer cfg i o) : o ≠ Outputs.refused := by
  rintro rfl
  simpa [Outputs.refused] using h.status_eq

/-- Recording a legal output keeps the observation legal. -/
theorem State.Inv.legal_append {s : State} (hs : s.Inv) {o : Outputs} (ho : o.Legal s.cfg) :
    ∀ x ∈ s.trace ++ [o], x.Legal s.cfg :=
  List.forall_mem_append.mpr ⟨hs.trace_legal, by simpa using ho⟩

/-- Ending an operation with legal outputs other than REFUSED keeps the invariant. -/
theorem State.Inv.finish {s : State} (hs : s.Inv) {o : Outputs} (ho : o.Legal s.cfg) (hne : o ≠ Outputs.refused) :
    (s.finish o).Inv where
  index_counts := by simp [hs.index_counts]
  trace_legal := hs.legal_append ho
  out_latest := .inr (by simp)
  run_meaning := by simp [hs.run_meaning, hne.symm]
  pending_wf p hp := hs.pending_wf p (List.mem_of_mem_tail hp)

/-- A refusal keeps the invariant: it is recorded, and the run has no meaning after it. -/
theorem State.Inv.refuse {s : State} (hs : s.Inv) : s.refuse.Inv where
  index_counts := by simp [hs.index_counts]
  trace_legal := hs.legal_append (.inl rfl)
  out_latest := .inr (by simp)
  run_meaning := by simp
  pending_wf p hp := hs.pending_wf p (List.mem_of_mem_tail hp)

/-- Settles O3: a step ends with an operation's legal answer or with a refusal, and each keeps the invariant. -/
theorem stepKeepsInvariant : Obligations.StepKeepsInvariant := by
  intro s s' hs h
  obtain ⟨p, rest, -, -, ⟨i, o, -, hans, rfl⟩ | ⟨e, -, rfl⟩⟩ := step_cases h
  · exact hs.finish hans.legal hans.ne_refused
  · exact hs.refuse

/-- Settles O2: nothing is recorded and nothing presented. -/
theorem resetMeetsInvariant : Obligations.ResetMeetsInvariant := fun cfg =>
  { index_counts := rfl
    trace_legal := by simp [State.resetWith]
    out_latest := .inl rfl
    run_meaning := by simp [State.resetWith]
    pending_wf := by simp [State.resetWith] }

/-- Settles O1: each field of the state after reset is the one written. -/
theorem resetLeavesNoOutput : Obligations.ResetLeavesNoOutput := rfl

/-! ### The output ports -/

/-- Settles O14: each operation's answer is a MALFORMED reply or the shape of its own rule, and neither has a value on
another operation's ports. -/
theorem portsAreWrittenOnlyByTheirOperations : Obligations.PortsAreWrittenOnlyByTheirOperations := by
  intro i s s' h
  obtain ⟨o, hans, rfl⟩ := exec_eq_next h
  rw [State.finish_out]
  cases i with
  | parse92 _ => obtain ⟨r, rfl, -⟩ | ⟨c, rfl, -⟩ := hans <;> simp [Outputs.malformed, Outputs.multiTurn, Instr.isParse]
  | parse94 _ => obtain ⟨r, rfl, -⟩ | ⟨c, rfl, -⟩ := hans <;> simp [Outputs.malformed, Outputs.singleTurn, Instr.isParse]
  | parse9A _ =>
    obtain ⟨r, rfl, -⟩ | ⟨t, v, p, rfl, -⟩ := hans <;> simp [Outputs.malformed, Outputs.status1, Instr.isParse]
  | parse9C _ => obtain ⟨r, rfl, -⟩ | ⟨v, rfl, -⟩ := hans <;> simp [Outputs.malformed, Outputs.status2, Instr.isParse]
  | parse95 _ => rw [show o = _ from hans]; simp [Outputs.presence, Instr.isParse]
  | buildA6 | build95 | buildA8 | build92 | build94 | build9A | build9C | build80 | build88 =>
    obtain ⟨frame, rfl, -⟩ := hans
    simp [Outputs.built, Instr.isParse]

/-- Reading a port faults exactly where it holds no value (R25). -/
theorem Outputs.readFaults_iff (o : Outputs) (p : OutPort) : o.ReadFaults p ↔ o.HoldsNoValue p := by
  cases p <;> exact readPort_eq_error

theorem Outputs.empty_holdsNoValue (p : OutPort) : Outputs.empty.HoldsNoValue p := by
  cases p <;> rfl

/-- A MALFORMED reply leaves a value on `status` and `reason` only (R203). -/
theorem Outputs.malformed_holdsNoValue (r : Reason) {p : OutPort} (hs : p ≠ .status) (hr : p ≠ .reason) :
    (Outputs.malformed r).HoldsNoValue p := by
  cases p with
  | status => exact absurd rfl hs
  | reason => exact absurd rfl hr
  | _ => rfl

/-- Absent is the first check of the four checked PARSE operations (R141, R205). -/
theorem exec_absent {i : Instr} (hi : i ∈ [Instr.parse92 none, .parse94 none, .parse9A none, .parse9C none]) (s : State) :
    exec i s = .next (s.finish (Outputs.malformed .absent)) := by
  simp only [List.mem_cons, List.not_mem_nil, or_false] at hi
  obtain rfl | rfl | rfl | rfl := hi <;> rfl

/-- Settles O15: reading faults where no value is held, which is every port after reset, and every port but `status` and
`reason` after an absent reply. -/
theorem unwrittenPortReadsFault : Obligations.UnwrittenPortReadsFault := by
  refine ⟨fun _ _ s' p _ => s'.out.readFaults_iff p,
    fun p => (Outputs.readFaults_iff _ p).mpr (Outputs.empty_holdsNoValue p), fun s i hi => ?_⟩
  exact ⟨_, exec_absent hi s, rfl, rfl,
    fun p hs hr => (Outputs.readFaults_iff _ p).mpr (Outputs.malformed_holdsNoValue _ hs hr)⟩

end Sys2Proof.Machine

/-!
Which ports and reply bytes an operation reads (10_state.md R22, 20_memory.md R45, 41_response_parser.md R140 to R142): two
presentations that agree on them give the same outputs, so the step cannot tell them apart.
-/

namespace Sys2Proof.Machine

/-! ### Reply bytes -/

theorem Operation.reply_absent {o : Operation} (h : o.rxPresent = false) : o.reply = none := by
  simp [Operation.reply, h]

theorem Operation.reply_present {o : Operation} (h : o.rxPresent = true) :
    o.reply = some (Memory.prefixBytes o.rx o.rxLen.val) := by
  simp [Operation.reply, h]

@[simp] theorem Memory.length_prefixBytes (m : Memory) (n : Nat) : (Memory.prefixBytes m n).length = n := by
  simp [Memory.prefixBytes]

/-- A field read from two buffers of one length is the same where the buffers agree on the field's delivered bytes. -/
theorem memRead_prefixBytes_congr {m m' : Memory} {n : Nat} {f : Field}
    (h : ∀ k, f.offset ≤ k → k < f.offset + f.width → k < n → Memory.read m k = Memory.read m' k) :
    memRead (Memory.prefixBytes m n) f = memRead (Memory.prefixBytes m' n) f := by
  have hslice : ((Memory.prefixBytes m n).drop f.offset).take f.width =
      ((Memory.prefixBytes m' n).drop f.offset).take f.width := by
    refine List.ext_getElem (by simp) fun k hk _ => ?_
    simp only [List.length_take, List.length_drop, Memory.length_prefixBytes, lt_inf_iff] at hk
    simpa [Memory.prefixBytes] using h (f.offset + k) (by omega) (by omega) (by omega)
  simp only [memRead, Memory.length_prefixBytes, hslice]

/-! ### The checks and the fields of a PARSE -/

section
variable {cfg : Config} {a b : Operation}

/-- Past presence and length, a PARSE reads byte 0 under `CHECK_ECHO` and its fields (R140 to R142). -/
theorem parseReply_congr {op : Byte} {covering : Nat} {x y : List Byte} {fields : List Byte → Except Fault Outputs}
    (hlen : x.length = y.length) (hecho : cfg.checkEcho = true → memRead x fieldOpcode = memRead y fieldOpcode)
    (hfields : fields x = fields y) :
    parseReply cfg op covering (some x) fields = parseReply cfg op covering (some y) fields := by
  have hpasses : echoPasses cfg op x = echoPasses cfg op y := by
    unfold echoPasses
    split
    · next hc => rw [hecho hc]
    · rfl
  simp only [parseReply, hlen, hpasses, hfields]

/-- Two presentations that agree on the fields named get the same answer from the checks, and so from any reading of those
fields. -/
theorem Operation.agreeReply.parseReply_eq {named : List Field} (h : a.agreeReply cfg b named) (op : Byte)
    (covering : Nat) {fields : List Byte → Except Fault Outputs}
    (hfields : ∀ x y, (∀ f ∈ named, memRead x f = memRead y f) → fields x = fields y) :
    parseReply cfg op covering a.reply fields = parseReply cfg op covering b.reply fields := by
  obtain ⟨hpresent, hbytes⟩ := h
  cases ha : a.rxPresent with
  | false => rw [Operation.reply_absent ha, Operation.reply_absent (hpresent ▸ ha)]
  | true =>
    obtain ⟨hlen, hecho, hnamed⟩ := hbytes ha
    rw [Operation.reply_present ha, Operation.reply_present (hpresent ▸ ha), ← hlen]
    exact parseReply_congr (by simp) (fun hc => memRead_prefixBytes_congr (hecho hc))
      (hfields _ _ fun f hf => memRead_prefixBytes_congr (hnamed f hf))

theorem outParse92_agree (h : a.agreeReply cfg b [fieldMultiTurn]) :
    outParse92 cfg a.reply = outParse92 cfg b.reply :=
  h.parseReply_eq _ _ fun x y hxy => by simp only [signedField, hxy fieldMultiTurn (by simp)]

theorem outParse94_agree (h : a.agreeReply cfg b [fieldSingleTurn]) :
    outParse94 cfg a.reply = outParse94 cfg b.reply :=
  h.parseReply_eq _ _ fun x y hxy => by simp only [hxy fieldSingleTurn (by simp)]

theorem outParse9A_agree (h : a.agreeReply cfg b [fieldTemperature, fieldVoltage, fieldPower]) :
    outParse9A cfg a.reply = outParse9A cfg b.reply :=
  h.parseReply_eq _ _ fun x y hxy => by
    simp only [signedField, hxy fieldTemperature (by simp), hxy fieldVoltage (by simp), hxy fieldPower (by simp)]

theorem outParse9C_agree (h : a.agreeReply cfg b [fieldReplySpeed]) :
    outParse9C cfg a.reply = outParse9C cfg b.reply :=
  h.parseReply_eq _ _ fun x y hxy => by simp only [signedField, hxy fieldReplySpeed (by simp)]

/-- PARSE.95 reads no byte: presence and length decide it (R154). -/
theorem outParse95_agree (hpresent : a.rxPresent = b.rxPresent) (hlen : a.rxPresent = true → a.rxLen = b.rxLen) :
    outParse95 a.reply = outParse95 b.reply := by
  cases ha : a.rxPresent with
  | false => rw [Operation.reply_absent ha, Operation.reply_absent (hpresent ▸ ha)]
  | true =>
    rw [Operation.reply_present ha, Operation.reply_present (hpresent ▸ ha), hlen ha]
    simp [outParse95, acknowledged]

/-! ### Presentations -/

/-- A select word is known from its kind and its opcode (R60). -/
theorem eq_selWord {x : Sel} {k : Bool} {op : Byte} (hk : selIsParse x = k) (hop : selOpcode x = op) :
    x = selWord k op := by
  rw [← hk, ← hop, selWord_parts]

/-- Of the ports a BUILD reads only its operands (R110 to R118). -/
theorem Operation.agreeNamed.decodeBuild_eq (h : a.agreeNamed cfg b) (hk : selIsParse a.sel = false) :
    decodeBuild (selOpcode a.sel) a = decodeBuild (selOpcode a.sel) b := by
  obtain ⟨-, hposition, hoffset, -⟩ := h
  unfold decodeBuild
  split_ifs with hA6 h95 hA8
  · obtain ⟨hangle, hdir, hspeed⟩ := hposition (.inl (eq_selWord hk hA6))
    rw [hangle, hdir, hspeed]
  · rw [hoffset (eq_selWord hk h95)]
  · obtain ⟨hangle, hdir, hspeed⟩ := hposition (.inr (eq_selWord hk hA8))
    rw [hangle, hdir, hspeed]
  all_goals rfl

/-- Two replies that agree on what the operation's rule names give the same outputs (R140 to R154). -/
theorem Operation.agreeNamed.decodeParse_outputs_eq (h : a.agreeNamed cfg b) (hk : selIsParse a.sel = true) :
    (decodeParse (selOpcode a.sel) a.reply).map (instrOutputs cfg) =
      (decodeParse (selOpcode a.sel) b.reply).map (instrOutputs cfg) := by
  obtain ⟨-, -, -, h92, h94, h9A, h9C, h95⟩ := h
  unfold decodeParse
  split_ifs with hop hop hop hop hop
  · exact congrArg Except.ok (outParse92_agree (h92 (eq_selWord hk hop)))
  · exact congrArg Except.ok (outParse94_agree (h94 (eq_selWord hk hop)))
  · exact congrArg Except.ok (outParse9A_agree (h9A (eq_selWord hk hop)))
  · exact congrArg Except.ok (outParse9C_agree (h9C (eq_selWord hk hop)))
  · obtain ⟨hpresent, hlen⟩ := h95 (eq_selWord hk hop)
    exact congrArg Except.ok (outParse95_agree hpresent hlen)
  · rfl

/-- Two presentations that agree on the named ports decode to operations with the same outputs, or to the same reject. -/
theorem Operation.agreeNamed.decode_outputs_eq (h : a.agreeNamed cfg b) :
    (decode a).map (instrOutputs cfg) = (decode b).map (instrOutputs cfg) := by
  unfold decode
  rw [← h.1]
  split
  · next hk => exact h.decodeParse_outputs_eq hk
  · next hk => rw [h.decodeBuild_eq (by simpa using hk)]

end

/-- Of the presentation at the head of the list a step sees only what outputs it decodes to. -/
theorem step_congr_presentation (s : State) {a b : Operation} (rest : List Operation)
    (h : (decode a).map (instrOutputs s.cfg) = (decode b).map (instrOutputs s.cfg)) :
    step { s with pending := a :: rest } = step { s with pending := b :: rest } := by
  cases hr : s.run with
  | withoutMeaning => exact (step_of_withoutMeaning rfl rfl).trans (step_of_withoutMeaning rfl rfl).symm
  | meaningful =>
    cases ha : decode a with
    | error e =>
      cases hb : decode b with
      | error e' =>
        rw [step_of_decode_error (rest := rest) rfl rfl ha, step_of_decode_error (rest := rest) rfl rfl hb]
        rfl
      | ok j => simp [ha, hb, Except.map] at h
    | ok i =>
      cases hb : decode b with
      | error e' => simp [ha, hb, Except.map] at h
      | ok j =>
        have hout : instrOutputs s.cfg i = instrOutputs s.cfg j := by simpa [ha, hb, Except.map] using h
        rw [stepRunsDecodedOperation _ a rest i rfl rfl ha, stepRunsDecodedOperation _ b rest j rfl rfl hb,
          exec_eq_complete, exec_eq_complete, hout]
        cases instrOutputs s.cfg j <;> rfl

/-- Settles O21: agreement on the named ports fixes the outputs, and the step sees nothing else of a presentation. -/
theorem unnamedPortsAreIgnored : Obligations.UnnamedPortsAreIgnored :=
  fun s _ _ rest h => step_congr_presentation s rest h.decode_outputs_eq

end Sys2Proof.Machine

/-!
Access to a field of delivered bytes or of a frame (20_memory.md R40, R43, R44, R47): the little-endian sum and its digits,
MemRead inside and outside the delivered bytes, MemWrite and the read-back, and the arbitration identifier.
-/

namespace Sys2Proof.Machine

/-! ### The little-endian value -/

/-- R43's sum, with the byte's index as the exponent. -/
theorem leValue_eq_sum (bs : List Byte) :
    leValue bs = ∑ i ∈ Finset.range bs.length, (bs.getD i 0).toNat * 256 ^ i := by
  induction bs with
  | nil => rfl
  | cons b bs ih =>
    rw [List.length_cons, Finset.sum_range_succ', leValue, ih, Finset.mul_sum, Nat.add_comm]
    congr 1
    · exact Finset.sum_congr rfl fun i _ => by rw [List.getD_cons_succ, pow_succ]; ring
    · simp

/-- The sum over a delivered slice, each byte named by its address in the whole list (R43). -/
theorem leValue_slice_eq_sum {bytes : List Byte} {off n : Nat} (h : off + n ≤ bytes.length) :
    leValue ((bytes.drop off).take n) = ∑ i ∈ Finset.range n, (bytes.getD (off + i) 0).toNat * 256 ^ i := by
  have hlen : ((bytes.drop off).take n).length = n := by
    rw [List.length_take, List.length_drop]
    omega
  rw [leValue_eq_sum, hlen]
  refine Finset.sum_congr rfl fun i hi => ?_
  rw [List.getD_eq_getElem?_getD, List.getElem?_take_of_lt (Finset.mem_range.mp hi), List.getElem?_drop,
    ← List.getD_eq_getElem?_getD]

/-- Byte 0 of a value is its low eight bits (R44). -/
theorem byteAt_zero_toNat (v : Nat) : (byteAt v 0).toNat = v % 256 := by simp [byteAt]

/-- The later bytes of a value are the bytes of its quotient by 256. -/
theorem byteAt_succ (v i : Nat) : byteAt v (i + 1) = byteAt (v / 256) i := by
  rw [byteAt, byteAt, pow_succ', Nat.div_div_eq_div_mul]

/-- The first `n` bytes of a value give it back modulo `256 ^ n` (R43, R44). -/
theorem leValue_map_byteAt (v n : Nat) : leValue ((List.range n).map (byteAt v)) = v % 256 ^ n := by
  induction n generalizing v with
  | zero => simp [leValue, Nat.mod_one]
  | succ n ih =>
    have htail : byteAt v ∘ Nat.succ = byteAt (v / 256) := funext (byteAt_succ v)
    rw [List.range_succ_eq_map, List.map_cons, List.map_map, leValue, htail, ih, byteAt_zero_toNat, pow_succ',
      Nat.mod_mul]

/-! ### MemRead and MemWrite -/

/-- No operation faults in any state: each answers, so every read it makes is defined (R43, R141). -/
theorem exec_ne_fault (i : Instr) (s : State) (f : Fault) : exec i s ≠ .fault f := by
  obtain ⟨o, -, hexec⟩ := exec_completes s.cfg i
  simp [hexec s rfl]

/-- Settles O22: the field's slice has R43's sum and its bound, and `exec` never faults. -/
theorem memReadIsLittleEndian : Obligations.MemReadIsLittleEndian := by
  refine ⟨fun bytes f h => ?_, exec_ne_fault⟩
  obtain ⟨hread, hlt⟩ := memRead_delivered h
  exact ⟨_, hread, hlt, leValue_slice_eq_sum h⟩

/-- A slice inside the frame lists the bytes that are read at its addresses. -/
theorem Memory.slice_bytes (m : Memory) {off n : Nat} (h : off + n ≤ 8) :
    ((Memory.bytes m).drop off).take n = (List.range n).map fun i => Memory.read m (off + i) := by
  refine List.ext_getElem ?_ fun k _ _ => by simp [Memory.bytes, Memory.prefixBytes]
  simp only [Memory.bytes, frameLength, List.length_take, List.length_drop, Memory.length_prefixBytes, List.length_map,
    List.length_range]
  omega

/-- MemRead of a field whose addresses hold the bytes of a value that fits answers the value (R43, R44). -/
theorem memRead_bytes_of_byteAt {m : Memory} {f : Field} {v : Nat} (hf : f.offset + f.width ≤ 8)
    (hv : v < 256 ^ f.width) (h : ∀ i < f.width, Memory.read m (f.offset + i) = byteAt v i) :
    memRead (Memory.bytes m) f = .ok v := by
  have hslice : ((Memory.bytes m).drop f.offset).take f.width = (List.range f.width).map (byteAt v) := by
    rw [Memory.slice_bytes m hf]
    exact List.map_congr_left fun i hi => h i (List.mem_range.mp hi)
  rw [(memRead_delivered (by simpa [Memory.bytes] using hf)).1, hslice, leValue_map_byteAt, Nat.mod_eq_of_lt hv]

/-- Settles O23: MemWrite leaves the value's bytes at the field's addresses and no other address changed. -/
theorem memWriteThenMemRead : Obligations.MemWriteThenMemRead := by
  intro m f v hm hf hv
  obtain ⟨m', hwrite, hwf, hread⟩ := memWrite_spec hm hf v
  refine ⟨m', hwrite, hwf, memRead_bytes_of_byteAt hf hv fun i hi => ?_, fun c hc => ?_⟩
  · rw [hread, if_pos (by omega), Nat.add_sub_cancel_left]
  · rw [hread, if_neg hc]

/-- Settles O24: each access checks the end of its field. -/
theorem accessOutsideTheFrameFaults : Obligations.AccessOutsideTheFrameFaults :=
  ⟨fun _ _ h => memRead_undelivered (Nat.not_le.mpr h), fun m _ v h => memWrite_outside m (Nat.not_le.mpr h) v⟩

/-! ### The arbitration identifier -/

/-- The identifier is the sum kept to 32 bits (R47). -/
theorem arbId_toNat (m : Nat) : (arbId m).toNat = (0x140 + m) % 2 ^ 32 := BitVec.toNat_ofNat _ _

/-- Settles O48: the 32-bit sum, and the three rows of 95_test_vectors.md section 2.12 by evaluation. -/
theorem arbitrationIdentifier : Obligations.ArbitrationIdentifier :=
  ⟨arbId_toNat, by decide, by decide, by decide⟩

end Sys2Proof.Machine

/-!
The select word and what the decoder reads from a presentation (10_state.md R22, 30_encoding.md R60, R61, R75, R77): one
equation per kind, what a decoded operation says of the presentation, and that the fourteen words of the table are exactly
those that decode.
-/

namespace Sys2Proof

open Machine

/-! ### The kind bit sends a presentation to its decoder -/

theorem decode_of_buildWord {o : Operation} {op : Byte} (h : o.sel = selWord false op) : decode o = decodeBuild op o := by
  simp [decode, h]

theorem decode_of_parseWord {o : Operation} {op : Byte} (h : o.sel = selWord true op) :
    decode o = decodeParse op o.reply := by
  simp [decode, h]

/-- A well-formed reply put on the ports of a PARSE reaches the decoder as it was written. -/
theorem decode_presentReply (op : Byte) {reply : Reply} (h : Reply.wf reply = true) :
    decode (presentReply (selWord true op) reply) = decodeParse op reply := by
  rw [decode_of_parseWord (presentReply_sel _ reply), presentReply_reply _ h]

/-- Settles O16: the kind bit of the select word chooses the decoder, the opcode its arm, and a reply of at most 8 bytes is
read from the ports as it was put there. -/
theorem decodeEncodeAgree : Obligations.DecodeEncodeAgree := by
  intro i hi
  cases i with
  | buildA6 | build95 | buildA8 | build92 | build94 | build9A | build9C | build80 | build88 =>
    exact Eq.trans (decode_of_buildWord rfl) rfl
  | parse92 _ | parse94 _ | parse9A _ | parse9C _ | parse95 _ => exact decode_presentReply _ hi

/-! ### What a decoded operation says of its presentation -/

theorem decodeBuild_eq_ok {op : Byte} {o : Operation} {i : Instr} (h : decodeBuild op o = .ok i) :
    i.isParse = false ∧ i.opcode = op ∧ i.wf = true := by
  unfold decodeBuild at h
  split_ifs at h with hop hop hop hop hop hop hop hop hop
  all_goals
    injection h with h
    subst h hop
    exact ⟨rfl, rfl, rfl⟩

theorem decodeParse_eq_ok {op : Byte} {reply : Reply} {i : Instr} (h : decodeParse op reply = .ok i) :
    i.isParse = true ∧ i.opcode = op ∧ i.wf = Reply.wf reply := by
  unfold decodeParse at h
  split_ifs at h with hop hop hop hop hop
  all_goals
    injection h with h
    subst h hop
    exact ⟨rfl, rfl, rfl⟩

/-- A decoded operation has the kind and the opcode of its presentation's select word, and is well formed. -/
theorem decode_eq_ok {o : Operation} {i : Instr} (h : decode o = .ok i) :
    i.isParse = selIsParse o.sel ∧ i.opcode = selOpcode o.sel ∧ i.wf = true := by
  unfold decode at h
  split at h
  · next hk =>
    obtain ⟨hkind, hop, hwf⟩ := decodeParse_eq_ok h
    exact ⟨hkind.trans hk.symm, hop, hwf.trans o.reply_wf⟩
  · next hk =>
    obtain ⟨hkind, hop, hwf⟩ := decodeBuild_eq_ok h
    exact ⟨hkind.trans (by simpa using hk), hop, hwf⟩

/-- Settles O17: the select word is its kind and its opcode, and the decoder keeps both. -/
theorem decodedSelectIsTheOperations : Obligations.DecodedSelectIsTheOperations := by
  intro o i h
  obtain ⟨hkind, hop, hwf⟩ := decode_eq_ok h
  exact ⟨by rw [Instr.sel, hkind, hop, selWord_parts], hwf⟩

/-! ### The table of select words -/

/-- The fourteen words of the table are the select words of the operations (R61). -/
theorem mem_tableSelects_iff {x : Sel} : x ∈ tableSelects ↔ ∃ i : Instr, x = i.sel := by
  constructor
  · revert x
    simp only [tableSelects, List.forall_mem_cons]
    exact ⟨⟨.buildA6 0 .clockwise 0, rfl⟩, ⟨.build95 0, rfl⟩, ⟨.buildA8 0 .clockwise 0, rfl⟩, ⟨.build92, rfl⟩,
      ⟨.build94, rfl⟩, ⟨.build9A, rfl⟩, ⟨.build9C, rfl⟩, ⟨.build80, rfl⟩, ⟨.build88, rfl⟩, ⟨.parse92 none, rfl⟩,
      ⟨.parse94 none, rfl⟩, ⟨.parse9A none, rfl⟩, ⟨.parse9C none, rfl⟩, ⟨.parse95 none, rfl⟩, by simp⟩
  · rintro ⟨i, rfl⟩
    cases i <;> simp only [Instr.sel, Instr.isParse, Instr.opcode] <;> decide

/-- The select word of an operation decodes, whatever the operand ports hold (R61). -/
theorem decode_ok_of_sel {o : Operation} {i : Instr} (h : o.sel = i.sel) : ∃ j, decode o = .ok j := by
  cases i with
  | buildA6 | build95 | buildA8 | build92 | build94 | build9A | build9C | build80 | build88 =>
    exact ⟨_, (decode_of_buildWord h).trans rfl⟩
  | parse92 | parse94 | parse9A | parse9C | parse95 => exact ⟨_, (decode_of_parseWord h).trans rfl⟩

/-- Settles O18: the words that decode are the select words of the operations, and those are the words of the table. -/
theorem selectTableIsExact : Obligations.SelectTableIsExact := by
  refine ⟨by decide, rfl, fun o => ?_⟩
  rw [mem_tableSelects_iff]
  constructor
  · rintro ⟨i, h⟩
    exact ⟨i, (decodedSelectIsTheOperations o i h).1⟩
  · rintro ⟨i, h⟩
    exact decode_ok_of_sel h

/-! ### A select word alone -/

/-- A table word decodes as an idle presentation of it does (R76). -/
theorem decodeTableWord_eq_some {nbits w : Nat} {i : Instr} :
    decodeTableWord nbits w = some i ↔ w < 512 ∧ decode (Operation.idle (BitVec.ofNat 9 w)) = .ok i := by
  unfold decodeTableWord
  split <;> cases decode (Operation.idle (BitVec.ofNat 9 w)) <;> simp [*]

/-- Settles O6: the word placed by `withFetchWord` is an idle presentation of it in a run that has a meaning. -/
theorem fetchWordRunsTheTableOperation : Obligations.FetchWordRunsTheTableOperation := by
  intro s nbits w i h
  exact stepRunsDecodedOperation _ _ _ i (s.withFetchWord_pending nbits w) (s.withFetchWord_run nbits w)
    (decodeTableWord_eq_some.mp h).2

/-- Settles O19: each word by evaluation of the decoder. -/
theorem selectWordsDecode : Obligations.SelectWordsDecode := by
  unfold Obligations.SelectWordsDecode
  decide

/-- Settles O20: each name by its row of the table of written names. -/
theorem secondNamesAgree : Obligations.SecondNamesAgree := by
  unfold Obligations.SecondNamesAgree
  decide

end Sys2Proof

/-!
The frames that the builder leaves, as bytes and as the 64-bit word `W` (00_scope.md R9, 30_encoding.md R63 to R66): a mask
of the low bytes of `W` reads those bytes of the frame only.
-/

namespace Sys2Proof.Machine

/-! ### Masks of a little-endian word -/

/-- The low `n` bytes of a little-endian value are its first `n` bytes. -/
theorem leValue_mod (bs : List Byte) (n : Nat) : leValue bs % 256 ^ n = leValue (bs.take n) := by
  induction bs generalizing n with
  | nil => simp [leValue]
  | cons b bs ih =>
    cases n with
    | zero => simp [leValue, Nat.mod_one]
    | succ n =>
      have hdiv : (b.toNat + 256 * leValue bs) / 256 = leValue bs := by omega
      rw [List.take_succ_cons, leValue, leValue, ← ih, pow_succ', Nat.mod_mul, hdiv]
      omega

/-- A mask of the low `n` bytes reads the first `n` bytes only (R9). -/
theorem leValue_and_mask (bs : List Byte) {n mask : Nat} (hmask : mask < 256 ^ n) :
    leValue bs &&& mask = leValue (bs.take n) &&& mask := by
  have hpow : 256 ^ n = 2 ^ (8 * n) := by rw [pow_mul]; norm_num
  rw [hpow] at hmask
  calc leValue bs &&& mask
      = (leValue bs &&& mask) % 2 ^ (8 * n) := (Nat.mod_eq_of_lt (Nat.and_lt_two_pow _ hmask)).symm
    _ = leValue (bs.take n) &&& mask := by
      rw [Nat.and_mod_two_pow, Nat.mod_eq_of_lt hmask, ← hpow, leValue_mod]

/-! ### What a BUILD completes with -/

/-- An operation completes with the outputs that its rule gives. -/
theorem completes_of_instrOutputs {i : Instr} {s : State} {o : Outputs} (h : instrOutputs s.cfg i = .ok o) :
    Completes i s o := by
  rw [Completes, exec_eq_complete, h]
  rfl

/-- A BUILD whose fields lie inside the frame completes with the frame of its opcode and its fields over zeros (R100). -/
theorem build_completes {i : Instr} {s : State} {op : Byte} {fs : List FieldValue}
    (hi : instrOutputs s.cfg i = buildOutputs op fs) (hf : ∀ f ∈ fs, f.field.offset + f.field.width ≤ 8) :
    ∃ frame, Completes i s (Outputs.built frame) ∧ Memory.wf frame = true ∧
      ∀ c, Memory.read frame c = readAfter (⟨fieldOpcode, op.toNat⟩ :: fs) Memory.unlisted c := by
  obtain ⟨frame, h, hwf, hread⟩ := buildOutputs_spec op fs hf
  exact ⟨frame, completes_of_instrOutputs (hi.trans h), hwf, hread⟩

/-! ### The masks -/

/-- The low `n` bytes of a frame, and so any mask of them, are what the addresses below `n` read (R9). -/
theorem frameWord_and_mask (f : Memory) {n mask : Nat} (hn : n ≤ 8) (hmask : mask < 256 ^ n) :
    frameWord f &&& mask = leValue (Memory.prefixBytes f n) &&& mask := by
  have htake : (Memory.bytes f).take n = Memory.prefixBytes f n := by
    simpa [Memory.prefixBytes] using Memory.slice_bytes f (off := 0) (by omega : 0 + n ≤ 8)
  rw [frameWord, leValue_and_mask _ hmask, htake]

/-- A mask of the low `n` bytes of a built frame reads what the builder leaves there (R9, R100). -/
theorem build_frameWord_and_mask {i : Instr} {s : State} {op : Byte} {fs : List FieldValue}
    (hi : instrOutputs s.cfg i = buildOutputs op fs) (hf : ∀ f ∈ fs, f.field.offset + f.field.width ≤ 8) {n mask : Nat}
    (hn : n ≤ 8) (hmask : mask < 256 ^ n) :
    ∃ f, Completes i s (Outputs.built f) ∧ frameWord f &&& mask =
      leValue ((List.range n).map (readAfter (⟨fieldOpcode, op.toNat⟩ :: fs) Memory.unlisted)) &&& mask := by
  obtain ⟨f, hcompletes, -, hread⟩ := build_completes hi hf
  exact ⟨f, hcompletes, by rw [frameWord_and_mask f hn hmask, Memory.prefixBytes, funext hread]⟩

/-- CMD-POS fixes byte 0 and all of byte 1 but the direction bit (R63). -/
theorem buildA6_mask (s : State) (angle : Rat) (dir : RotationDirection) (speed : Int) :
    ∃ f, Completes (.buildA6 angle dir speed) s (Outputs.built f) ∧ frameWord f &&& 0xFEFF = 0xA6 := by
  obtain ⟨f, hf, hmask⟩ := build_frameWord_and_mask (i := .buildA6 angle dir speed) (s := s) (n := 2) (mask := 0xFEFF)
    rfl (by simp) (by decide) (by decide)
  refine ⟨f, hf, hmask.trans ?_⟩
  cases dir <;> simp [readAfter, leValue, List.range_succ, byteAt, Memory.unlisted, directionBits]

/-- CMD-OFS fixes bytes 0 to 3 (R64). -/
theorem build95_mask (s : State) (angle : Rat) :
    ∃ f, Completes (.build95 angle) s (Outputs.built f) ∧ frameWord f &&& 0xFFFFFFFF = 0x95 := by
  obtain ⟨f, hf, hmask⟩ := build_frameWord_and_mask (i := .build95 angle) (s := s) (n := 4) (mask := 0xFFFFFFFF)
    rfl (by simp) (by decide) (by decide)
  exact ⟨f, hf, hmask.trans (by simp [readAfter, leValue, List.range_succ, byteAt, Memory.unlisted])⟩

/-- CMD-INC fixes bytes 0 and 1 (R65). -/
theorem buildA8_mask (s : State) (angle : Rat) (dir : RotationDirection) (speed : Int) :
    ∃ f, Completes (.buildA8 angle dir speed) s (Outputs.built f) ∧ frameWord f &&& 0xFFFF = 0xA8 := by
  obtain ⟨f, hf, hmask⟩ := build_frameWord_and_mask (i := .buildA8 angle dir speed) (s := s) (n := 2) (mask := 0xFFFF)
    rfl (by simp) (by decide) (by decide)
  exact ⟨f, hf, hmask.trans (by simp [readAfter, leValue, List.range_succ, byteAt, Memory.unlisted])⟩

/-- CMD-BARE is the opcode over zeros (R66). -/
theorem bareBuild_frameWord {i : Instr} {s : State} (hi : instrOutputs s.cfg i = buildOutputs i.opcode []) :
    ∃ f, Completes i s (Outputs.built f) ∧ frameWord f = i.opcode.toNat := by
  obtain ⟨f, hf, -, hread⟩ := build_completes hi (by simp)
  refine ⟨f, hf, ?_⟩
  rw [frameWord, Memory.bytes_eq]
  simp [hread, readAfter, leValue, byteAt, Memory.unlisted]

/-- Settles O35: each format's mask covers bytes that the builder fixes. -/
theorem builtFramesMeetTheirMask : Obligations.BuiltFramesMeetTheirMask := by
  refine fun s angle dir speed =>
    ⟨buildA6_mask s angle dir speed, build95_mask s angle, buildA8_mask s angle dir speed, fun i hi => ?_⟩
  simp only [List.mem_cons, List.not_mem_nil, or_false] at hi
  obtain rfl | rfl | rfl | rfl | rfl | rfl := hi <;> exact bareBuild_frameWord rfl

end Sys2Proof.Machine

/-!
The host's sequences (30_encoding.md R78 to R83, 70_reset_and_hazards.md R242): what each command expands to.
-/

namespace Sys2Proof.Machine

/-! ### TOGGLE_POWER -/

/-- No power command follows a MALFORMED status (R83). -/
@[simp] theorem Session.powerChoice_malformed (h : Session) (r : Reason) :
    h.powerChoice (Outputs.malformed r) = .ok [] := rfl

/-- After a status that was read, the power command is the other one (R83). -/
@[simp] theorem Session.powerChoice_status1 (h : Session) (temp : Nat) (volt : Int) (power : Byte) (on : Bool) :
    h.powerChoice (Outputs.status1 temp volt power on) =
      .ok [.operate (if on then .build80 else .build88), .send (arbId h.active)] := rfl

/-- TOGGLE_POWER is the status transaction, its parse, and the choice that the parse's outputs make (R83). -/
theorem Session.actions_togglePower {cfg : Config} {h : Session} {reply : Reply} {o : Outputs} {choice : List Action}
    (ho : outParse9A cfg reply = .ok o) (hchoice : h.powerChoice o = .ok choice) :
    h.actions cfg (.togglePower reply) =
      .ok ([.operate .build9A, .send (arbId h.active), .receive reply, .operate (.parse9A reply)] ++ choice) := by
  simp only [Session.actions, ho, bind, Except.bind, hchoice]
  rfl

/-- Settles O50: the parse answers MALFORMED, and nothing follows, or the status, and its `power_on` chooses. -/
theorem togglePowerFollowsTheStatus : Obligations.TogglePowerFollowsTheStatus := by
  intro cfg h reply
  obtain ⟨o, ho, ⟨r, rfl, -⟩ | ⟨temp, volt, power, rfl, -⟩⟩ := outParse9A_isAnswer cfg reply
  · refine ⟨_, _, ho, Session.actions_togglePower ho (h.powerChoice_malformed r), ?_⟩
    simp [Outputs.malformed]
  · refine ⟨_, _, ho, Session.actions_togglePower ho (h.powerChoice_status1 temp volt power _), ?_⟩
    simp +contextual [Outputs.status1]

/-! ### The fixed sequences -/

/-- Settles O51: each expansion is the model's list of actions, written out. -/
theorem readSequencesExpandInOrder : Obligations.ReadSequencesExpandInOrder :=
  fun _ _ _ _ _ => ⟨rfl, rfl, rfl, rfl⟩

theorem Session.parameters_staged {h : Session} {p : Staged} (hp : h.staged = some p) : h.parameters = p := by
  simp [Session.parameters, hp]

theorem Session.parameters_unstaged {h : Session} (hp : h.staged = none) : h.parameters = Config.stagedInit := by
  simp [Session.parameters, hp]

/-- MOVE_ABS builds with the session's parameters, whatever they are, and sends (R78). -/
theorem Session.actions_moveAbs {cfg : Config} {h : Session} {p : Staged} (hp : h.parameters = p) :
    h.actions cfg .moveAbs = .ok [.operate (.buildA6 p.angle p.dir p.speed), .send (arbId h.active)] := by
  simp only [Session.actions, hp]

/-- MOVE_INC builds with the session's parameters, whatever they are, and sends (R79). -/
theorem Session.actions_moveInc {cfg : Config} {h : Session} {p : Staged} (hp : h.parameters = p) :
    h.actions cfg .moveInc = .ok [.operate (.buildA8 p.angle p.dir p.speed), .send (arbId h.active)] := by
  simp only [Session.actions, hp]

/-- Settles O52: the moves read the session's parameters, which are the staged ones or else the free draw. -/
theorem movesUseTheStagedParameters : Obligations.MovesUseTheStagedParameters := by
  intro cfg h p
  refine ⟨Session.actions_moveAbs rfl, Session.actions_moveInc rfl, fun hstaged => ?_, fun hnone => ?_, rfl, rfl⟩
  · have hp := Session.parameters_staged hstaged
    exact ⟨Session.actions_moveAbs hp, Session.actions_moveInc hp⟩
  · have hp := Session.parameters_unstaged hnone
    exact ⟨hp, Session.actions_moveAbs hp, Session.actions_moveInc hp⟩

end Sys2Proof.Machine

/-!
Rounding (40_frame_builder.md R101, R102, R119): the rule of each mode as a property of the integer it gives, and what the
rules imply: every mode but Floor is odd, and an angle on the grid of 0.01 degree is its own count.
-/

namespace Sys2Proof.Machine

/-- The mirror image of an integer is as far from the mirror image of a number. -/
theorem abs_neg_sub_neg_intCast (x : Rat) (m : Int) : |-x - ((-m : Int) : Rat)| = |x - m| := by
  rw [Int.cast_neg, neg_sub_neg, abs_sub_comm]

/-! ### HalfEven -/

/-- `m` is a nearest integer to `x`, and the even one on a tie (R102). -/
def IsNearestEven (x : Rat) (m : Int) : Prop := |x - m| ≤ 1 / 2 ∧ (|x - m| = 1 / 2 → m % 2 = 0)

theorem IsNearestEven.of_lt {x : Rat} {m : Int} (h : |x - m| < 1 / 2) : IsNearestEven x m :=
  ⟨h.le, fun htie => absurd htie h.ne⟩

theorem IsNearestEven.neg {x : Rat} {m : Int} (h : IsNearestEven x m) : IsNearestEven (-x) (-m) := by
  have habs := abs_neg_sub_neg_intCast x m
  obtain ⟨hnear, heven⟩ := h
  exact ⟨habs ▸ hnear, fun htie => by have := heven (habs ▸ htie); omega⟩

/-- A nearest integer `m` with a larger one `n` would make `x` their midpoint, and both of them even. -/
theorem IsNearestEven.le {x : Rat} {m n : Int} (hm : IsNearestEven x m) (hn : IsNearestEven x n) : n ≤ m := by
  by_contra! hlt
  obtain ⟨hmNear, hmEven⟩ := hm
  obtain ⟨hnNear, hnEven⟩ := hn
  have hxm := (abs_le.mp hmNear).2
  have hxn := (abs_le.mp hnNear).1
  have hgap : n ≤ m + 1 := by
    have : (n : Rat) ≤ m + 1 := by linarith
    exact_mod_cast this
  obtain rfl : n = m + 1 := by omega
  push_cast at hxn hnEven
  have hmTie := hmEven (by rw [show x - m = 1 / 2 by linarith]; norm_num)
  have hnTie := hnEven (by rw [show x - (m + 1) = -(1 / 2) by linarith]; norm_num)
  omega

theorem IsNearestEven.unique {x : Rat} {m n : Int} (hm : IsNearestEven x m) (hn : IsNearestEven x n) : m = n :=
  le_antisymm (hn.le hm) (hm.le hn)

theorem roundTo_halfEven_isNearestEven (x : Rat) : IsNearestEven x (roundTo .halfEven x) := by
  have hlo := Rat.floor_le x
  have hhi := Rat.lt_floor (x := x)
  simp only [roundTo]
  split_ifs with hbelow habove heven
  · exact .of_lt (by rw [abs_of_nonneg (by linarith)]; exact hbelow)
  · exact .of_lt (by rw [abs_lt]; push_cast; constructor <;> linarith)
  · have hmid : x - x.floor = 1 / 2 := by linarith
    exact ⟨by rw [hmid]; norm_num, fun _ => heven⟩
  · have hmid : x - (x.floor + 1 : Int) = -(1 / 2) := by push_cast; linarith
    exact ⟨by rw [hmid]; norm_num, fun _ => by omega⟩

/-! ### HalfAway and TowardZero: a rule for the non-negative numbers, carried over to the negative ones -/

/-- The rounding that is `f` on the non-negative numbers and mirrored below 0. -/
def mirrored (f : Rat → Int) (x : Rat) : Int := if 0 ≤ x then f x else -f (-x)

/-- The nearest integer, the greater one on a tie: HalfAway for the non-negative numbers (R102). -/
def halfUp (x : Rat) : Int := (x + 1 / 2).floor

theorem halfUp_le (x : Rat) : (halfUp x : Rat) ≤ x + 1 / 2 := Rat.floor_le _

theorem lt_halfUp (x : Rat) : x - 1 / 2 < halfUp x := by
  have := Rat.lt_floor (x := x + 1 / 2)
  rw [halfUp]
  linarith

theorem halfUp_intCast (k : Int) : halfUp k = k :=
  show ⌊(k : Rat) + 1 / 2⌋ = k from Int.floor_eq_iff.mpr ⟨by linarith, by linarith⟩

theorem roundTo_halfAway_eq (x : Rat) : roundTo .halfAway x = mirrored halfUp x := rfl

theorem roundTo_towardZero_eq (x : Rat) : roundTo .towardZero x = mirrored Rat.floor x := rfl

theorem mirrored_neg {f : Rat → Int} (h : ∀ k : Int, f k = k) (x : Rat) : mirrored f (-x) = -mirrored f x := by
  unfold mirrored
  obtain hneg | rfl | hpos := lt_trichotomy x 0
  · rw [if_pos (by linarith), if_neg (by linarith), neg_neg]
  · have h0 : f 0 = 0 := h 0
    simp [h0]
  · rw [if_neg (by linarith), if_pos hpos.le, neg_neg]

theorem mirrored_intCast {f : Rat → Int} (h : ∀ k : Int, f k = k) (k : Int) : mirrored f k = k := by
  unfold mirrored
  split
  · exact h k
  · rw [← Int.cast_neg, h, neg_neg]

/-- `m` is a nearest integer to `x`, and the one farther from zero on a tie (R102). -/
def IsNearestAway (x : Rat) (m : Int) : Prop := |x - m| ≤ 1 / 2 ∧ (|x - m| = 1 / 2 → |x| < |(m : Rat)|)

theorem IsNearestAway.neg {x : Rat} {m : Int} (h : IsNearestAway x m) : IsNearestAway (-x) (-m) := by
  have habs := abs_neg_sub_neg_intCast x m
  obtain ⟨hnear, haway⟩ := h
  exact ⟨habs ▸ hnear, fun htie => by simpa using haway (habs ▸ htie)⟩

theorem halfUp_isNearestAway {x : Rat} (hx : 0 ≤ x) : IsNearestAway x (halfUp x) := by
  have hhi := halfUp_le x
  have hlo := lt_halfUp x
  refine ⟨abs_le.mpr ⟨by linarith, by linarith⟩, fun htie => ?_⟩
  obtain h | h := (abs_eq (by norm_num)).mp htie
  · linarith
  · rw [abs_of_nonneg hx]
    exact lt_of_lt_of_le (by linarith) (le_abs_self _)

theorem roundTo_halfAway_isNearestAway (x : Rat) : IsNearestAway x (roundTo .halfAway x) := by
  rw [roundTo_halfAway_eq, mirrored]
  split
  · next hx => exact halfUp_isNearestAway hx
  · next hx => simpa using (halfUp_isNearestAway (x := -x) (by linarith)).neg

theorem roundTo_towardZero_of_nonneg {x : Rat} (hx : 0 ≤ x) :
    (roundTo .towardZero x : Rat) ≤ x ∧ x < roundTo .towardZero x + 1 := by
  rw [roundTo_towardZero_eq, mirrored, if_pos hx]
  exact ⟨Rat.floor_le x, by linarith [Rat.lt_floor (x := x)]⟩

theorem roundTo_towardZero_of_neg {x : Rat} (hx : x < 0) :
    x ≤ roundTo .towardZero x ∧ (roundTo .towardZero x : Rat) < x + 1 := by
  rw [roundTo_towardZero_eq, mirrored, if_neg (by linarith)]
  push_cast
  exact ⟨by linarith [Rat.floor_le (-x)], by linarith [Rat.lt_floor (x := -x)]⟩

/-- Settles O25: each mode's rule; below 0 those of HalfAway and TowardZero by their mirror image. -/
theorem roundingModesMeetTheirRule : Obligations.RoundingModesMeetTheirRule := fun x =>
  ⟨roundTo_halfEven_isNearestEven x, roundTo_halfAway_isNearestAway x,
    ⟨roundTo_towardZero_of_nonneg, roundTo_towardZero_of_neg⟩,
    Rat.floor_le x, by exact_mod_cast Rat.lt_floor_add_one x⟩

/-! ### What the rules imply -/

/-- Rounding is odd in every mode but Floor (R102). -/
theorem roundTo_neg {mode : RoundMode} (h : mode ≠ .floor) (x : Rat) : roundTo mode (-x) = -roundTo mode x := by
  cases mode with
  | halfEven => exact (roundTo_halfEven_isNearestEven (-x)).unique (roundTo_halfEven_isNearestEven x).neg
  | halfAway => exact mirrored_neg halfUp_intCast x
  | towardZero => exact mirrored_neg Rat.floor_intCast x
  | floor => exact absurd rfl h

/-- Settles O26: at 1/2 Floor gives 0, and at -1/2 it gives -1. -/
theorem roundingIsOddButForFloor : Obligations.RoundingIsOddButForFloor :=
  ⟨fun _ x h => roundTo_neg h x, 1 / 2, by decide +kernel⟩

/-- An integer rounds to itself in every mode (R102). -/
@[simp] theorem roundTo_intCast (mode : RoundMode) (k : Int) : roundTo mode k = k := by
  cases mode with
  | halfEven => exact (roundTo_halfEven_isNearestEven k).unique (.of_lt (by norm_num))
  | halfAway => exact mirrored_intCast halfUp_intCast k
  | towardZero => exact mirrored_intCast Rat.floor_intCast k
  | floor => exact Rat.floor_intCast k

/-- An angle whose hundredfold is an integer has that integer as its count (R101, R119). -/
theorem scale_of_mul_eq {cfg : Config} {angle : Rat} {k : Int} (h : angle * 100 = k) : scale cfg angle = k := by
  rw [scale, angleScale, h, roundTo_intCast]

/-- Settles O27: the hundredfold of `k / 100` is `k`. -/
theorem gridAnglesAreExact : Obligations.GridAnglesAreExact := fun _ _ => scale_of_mul_eq (by ring)

/-- The count of the negated angle is the negated count, but for Floor (R119). -/
theorem scale_neg {cfg : Config} (h : cfg.roundMode ≠ .floor) (angle : Rat) : scale cfg (-angle) = -scale cfg angle := by
  rw [scale, neg_mul, roundTo_neg h, scale]

end Sys2Proof.Machine

/-!
Width reduction (00_scope.md R8, 40_frame_builder.md R103 to R105, R119): `wrap` is the residue modulo 2^N, the signed
reading changes a pattern by a multiple of 2^N, and a value in the signed range is the only one there with its residue.
-/

namespace Sys2Proof.Machine

/-! ### The low bits and their signed reading -/

theorem wrap_cast (n : Nat) (v : Int) : (wrap n v : Int) = v % 2 ^ n :=
  Int.toNat_of_nonneg (Int.emod_nonneg v (by positivity))

theorem sext_sub_dvd (n u : Nat) : (2 : Int) ^ n ∣ sext n u - u := by
  unfold sext
  split <;> simp

/-- The signed reading of the low bits differs from the value by a multiple of 2^N (R8). -/
theorem sext_wrap_sub_dvd (n : Nat) (v : Int) : (2 : Int) ^ n ∣ sext n (wrap n v) - v := by
  have hlow : (2 : Int) ^ n ∣ wrap n v - v := by
    rw [wrap_cast, dvd_sub_comm]
    exact Int.dvd_self_sub_emod
  simpa using dvd_add (sext_sub_dvd n (wrap n v)) hlow

/-- A value in the signed range is the signed reading of its low bits (R8). -/
theorem sext_wrap_of_range {n : Nat} {v : Int} (hn : 0 < n) (hlo : -2 ^ (n - 1) ≤ v) (hhi : v < 2 ^ (n - 1)) :
    sext n (wrap n v) = v := by
  obtain ⟨hslo, hshi⟩ := sext_range hn (wrap_lt n v)
  have hpow : (2 : Int) ^ n = 2 * 2 ^ (n - 1) := (mul_pow_sub_one hn.ne' 2).symm
  refine sub_eq_zero.mp (Int.eq_zero_of_abs_lt_dvd (sext_wrap_sub_dvd n v) ?_)
  rw [abs_lt, hpow]
  constructor <;> linarith

/-! ### The two reductions -/

section
variable {cfg : Config} {n : Nat} {v : Int}

theorem reduceS_of_wrap (h : cfg.widthReduction = .wrap) : reduceS cfg n v = wrap n v := by simp only [reduceS, h]

theorem reduceU_of_wrap (h : cfg.widthReduction = .wrap) : reduceU cfg n v = wrap n v := by simp only [reduceU, h]

/-- Under Saturate the signed reading of the reduction is the value clamped to the signed range (R103). -/
theorem sext_reduceS_of_saturate (h : cfg.widthReduction = .saturate) (hn : 0 < n) :
    sext n (reduceS cfg n v) = min (max v (-2 ^ (n - 1))) (2 ^ (n - 1) - 1) := by
  have hpos : (0 : Int) < 2 ^ (n - 1) := by positivity
  simp only [reduceS, h]
  exact sext_wrap_of_range hn (by omega) (by omega)

/-- Under Saturate the unsigned reduction is the value clamped to the unsigned range (R104). -/
theorem reduceU_cast_of_saturate (h : cfg.widthReduction = .saturate) :
    (reduceU cfg n v : Int) = min (max v 0) (2 ^ n - 1) := by
  have hpos : (0 : Int) < 2 ^ n := by positivity
  simp only [reduceU, h]
  exact Int.toNat_of_nonneg (by omega)

/-- In the signed range both reductions keep the low bits (R103). -/
theorem reduceS_of_range (hlo : -2 ^ (n - 1) ≤ v) (hhi : v ≤ 2 ^ (n - 1) - 1) : reduceS cfg n v = wrap n v := by
  unfold reduceS
  split
  · rfl
  · rw [max_eq_left hlo, min_eq_left hhi]

/-- In the unsigned range both reductions keep the value (R104). -/
theorem reduceU_of_range (hlo : 0 ≤ v) (hhi : v ≤ 2 ^ n - 1) : (reduceU cfg n v : Int) = v := by
  cases h : cfg.widthReduction with
  | wrap => rw [reduceU_of_wrap h, wrap_cast, Int.emod_eq_of_lt hlo (by omega)]
  | saturate => rw [reduceU_cast_of_saturate h, max_eq_left hlo, min_eq_left hhi]

theorem reduceU_natCast {u : Nat} (h : u < 2 ^ n) : reduceU cfg n u = u := by
  have hhi : (u : Int) < 2 ^ n := by exact_mod_cast h
  exact_mod_cast reduceU_of_range (cfg := cfg) (Int.natCast_nonneg u) (by omega)

end

/-- Settles O28: in range the reductions keep the low bits, and the signed reading gives the value back. -/
theorem reductionKeepsValuesInRange : Obligations.ReductionKeepsValuesInRange := fun cfg n v hn =>
  ⟨fun hlo hhi => by rw [reduceS_of_range hlo hhi, sext_wrap_of_range hn hlo (by omega)], reduceU_of_range⟩

/-- Settles O29: the residue modulo 2^N under Wrap, the clamped value under Saturate. -/
theorem reductionOutsideTheRange : Obligations.ReductionOutsideTheRange := by
  intro cfg n v hn
  constructor
  · intro h
    rw [reduceS_of_wrap h, reduceU_of_wrap h]
    exact ⟨wrap_cast n v, wrap_cast n v, sext_wrap_sub_dvd n v⟩
  · intro h
    have hsigned := sext_reduceS_of_saturate (v := v) h hn
    have hunsigned := reduceU_cast_of_saturate (n := n) (v := v) h
    have hhalf : (0 : Int) < 2 ^ (n - 1) := by positivity
    have hfull : (0 : Int) < 2 ^ n := by positivity
    exact ⟨fun _ => by omega, fun _ => by omega, fun _ => by omega, fun _ => by omega⟩

end Sys2Proof.Machine

/-!
The nine BUILD operations (40_frame_builder.md R100, R106, R110 to R118): each is one call of `buildOutputs` with its opcode
and fields, so each completes, and its frame's bytes are what `readAfter` gives at the eight addresses.
-/

namespace Sys2Proof.Machine

/-! ### No BUILD fails, and no presentation stops the machine -/

/-- The fields that a BUILD writes after its opcode (R63 to R66), none for the bare ones and a PARSE;
`instrOutputs_of_build` ties it to the operations. -/
def buildFields (cfg : Config) : Instr → List FieldValue
  | .buildA6 angle dir speed =>
    [⟨fieldDirection, directionBits dir⟩, ⟨fieldCommandSpeed, speedBits cfg speed⟩,
      ⟨fieldCommandAngle, countBits cfg (scale cfg angle)⟩]
  | .build95 angle => [⟨fieldCommandAngle, countBits cfg (scale cfg angle)⟩]
  | .buildA8 angle dir speed =>
    [⟨fieldDirection, 0⟩, ⟨fieldCommandSpeed, speedBits cfg speed⟩,
      ⟨fieldCommandAngle, countBits cfg (signedIncrement dir (scale cfg angle))⟩]
  | _ => []

theorem instrOutputs_of_build (cfg : Config) {i : Instr} (h : i.isParse = false) :
    instrOutputs cfg i = buildOutputs i.opcode (buildFields cfg i) := by
  cases i with
  | buildA6 | build95 | buildA8 | build92 | build94 | build9A | build9C | build80 | build88 => rfl
  | parse92 | parse94 | parse9A | parse9C | parse95 => cases h

/-- The fields of every BUILD lie in bytes 1 to 7 (R45). -/
theorem buildFields_inside (cfg : Config) (i : Instr) :
    ∀ f ∈ buildFields cfg i, 1 ≤ f.field.offset ∧ f.field.offset + f.field.width ≤ 8 := by
  cases i <;> simp [buildFields]

/-- Every BUILD completes with a canonical frame of its opcode and fields over zeros (R100). -/
theorem completes_of_build {i : Instr} (h : i.isParse = false) (s : State) :
    ∃ frame, Completes i s (Outputs.built frame) ∧ Memory.wf frame = true ∧
      ∀ c, Memory.read frame c =
        readAfter (⟨fieldOpcode, i.opcode.toNat⟩ :: buildFields s.cfg i) Memory.unlisted c :=
  build_completes (instrOutputs_of_build s.cfg h) fun f hf => (buildFields_inside s.cfg i f hf).2

/-- Fields that begin past an address leave it as it was. -/
theorem readAfter_of_lt {fs : List FieldValue} {c : Nat} (h : ∀ f ∈ fs, c < f.field.offset) (b : Byte) :
    readAfter fs b c = b := by
  induction fs generalizing b with
  | nil => rfl
  | cons f fs ih =>
    obtain ⟨hf, hfs⟩ := List.forall_mem_cons.mp h
    rw [readAfter, List.foldl_cons, if_neg (by omega)]
    exact ih hfs b

/-- The first byte of a byte's own value is the byte. -/
@[simp] theorem byteAt_toNat_zero (b : Byte) : byteAt b.toNat 0 = b := by simp [byteAt]

/-- Settles O30: the opcode is written first, and no field reaches byte 0. -/
theorem builderNeverFails : Obligations.BuilderNeverFails := by
  intro i s h
  obtain ⟨frame, hcompletes, hwf, hread⟩ := completes_of_build h s
  refine ⟨frame, hcompletes, hwf, ?_⟩
  calc Memory.read frame 0
      = readAfter (buildFields s.cfg i) (byteAt i.opcode.toNat 0) 0 := hread 0
    _ = byteAt i.opcode.toNat 0 := readAfter_of_lt (fun f hf => (buildFields_inside s.cfg i f hf).1) _
    _ = i.opcode := byteAt_toNat_zero _

/-- Settles O10: a presentation that decodes completes, and one that does not is refused. -/
theorem presentedOperationAlwaysCompletes : Obligations.PresentedOperationAlwaysCompletes := by
  intro s o rest hpending hrun
  cases hdecode : decode o with
  | error e => exact ⟨_, step_of_decode_error hpending hrun hdecode⟩
  | ok i =>
    obtain ⟨out, -, hexec⟩ := exec_completes s.cfg i
    exact ⟨_, (stepRunsDecodedOperation s o rest i hpending hrun hdecode).trans (hexec s rfl)⟩

/-! ### The bytes of the frames -/

/-- A BUILD's frame is what its opcode and fields leave at the eight addresses (R100). -/
theorem buildsFrame_of_build {i : Instr} (h : i.isParse = false) {s : State} {bytes : List Byte}
    (hbytes : (List.range 8).map
      (readAfter (⟨fieldOpcode, i.opcode.toNat⟩ :: buildFields s.cfg i) Memory.unlisted) = bytes) :
    BuildsFrame i s bytes := by
  obtain ⟨frame, hcompletes, hwf, hread⟩ := completes_of_build h s
  exact ⟨frame, hcompletes, hwf, by rw [← hbytes, ← funext hread]; rfl⟩

/-- The bytes of CMD-POS and CMD-INC: opcode, one byte, LE16, LE32 (R63, R65); `readAfter_position` ties it to the
builder. -/
def positionBytes (op : Byte) (d speed count : Nat) : List Byte :=
  [op, BitVec.ofNat 8 d, BitVec.ofNat 8 speed, BitVec.ofNat 8 (speed / 256), BitVec.ofNat 8 count,
    BitVec.ofNat 8 (count / 256), BitVec.ofNat 8 (count / 65536), BitVec.ofNat 8 (count / 16777216)]

/-- The bytes of CMD-OFS: opcode, three zeros, LE32 (R64); `readAfter_offset` ties it to the builder. -/
def offsetBytes (op : Byte) (count : Nat) : List Byte :=
  [op, 0x00, 0x00, 0x00, BitVec.ofNat 8 count, BitVec.ofNat 8 (count / 256), BitVec.ofNat 8 (count / 65536),
    BitVec.ofNat 8 (count / 16777216)]

theorem readAfter_position (op : Byte) (d speed count : Nat) :
    (List.range 8).map (readAfter [⟨fieldOpcode, op.toNat⟩, ⟨fieldDirection, d⟩, ⟨fieldCommandSpeed, speed⟩,
      ⟨fieldCommandAngle, count⟩] Memory.unlisted) = positionBytes op d speed count := by
  simp [List.range_succ, readAfter, byteAt, positionBytes]

theorem readAfter_offset (op : Byte) (count : Nat) :
    (List.range 8).map (readAfter [⟨fieldOpcode, op.toNat⟩, ⟨fieldCommandAngle, count⟩] Memory.unlisted) =
      offsetBytes op count := by
  simp [List.range_succ, readAfter, byteAt, offsetBytes, Memory.unlisted]

/-- The bytes of CMD-BARE: the opcode alone (R66). -/
theorem readAfter_bare (op : Byte) :
    (List.range 8).map (readAfter [⟨fieldOpcode, op.toNat⟩] Memory.unlisted) = [op, 0, 0, 0, 0, 0, 0, 0] := by
  simp [List.range_succ, readAfter, byteAt, Memory.unlisted]

theorem buildA6_buildsFrame (angle : Rat) (dir : RotationDirection) (speed : Int) (s : State) :
    BuildsFrame (.buildA6 angle dir speed) s
      (positionBytes 0xA6 (directionBits dir) (reduceU s.cfg 16 speed) (reduceS s.cfg 32 (scale s.cfg angle))) :=
  buildsFrame_of_build rfl (readAfter_position _ _ _ _)

theorem build95_buildsFrame (angle : Rat) (s : State) :
    BuildsFrame (.build95 angle) s (offsetBytes 0x95 (reduceS s.cfg 32 (scale s.cfg angle))) :=
  buildsFrame_of_build rfl (readAfter_offset _ _)

theorem buildA8_buildsFrame (angle : Rat) (dir : RotationDirection) (speed : Int) (s : State) :
    BuildsFrame (.buildA8 angle dir speed) s
      (positionBytes 0xA8 0 (reduceU s.cfg 16 speed) (reduceS s.cfg 32 (signedIncrement dir (scale s.cfg angle)))) :=
  buildsFrame_of_build rfl (readAfter_position _ _ _ _)

/-- A BUILD without fields leaves its opcode and seven zeros (R113 to R118). -/
theorem bareBuild_buildsFrame {i : Instr} {s : State} (h : i.isParse = false) (hfields : buildFields s.cfg i = []) :
    BuildsFrame i s [i.opcode, 0, 0, 0, 0, 0, 0, 0] :=
  buildsFrame_of_build h (by rw [hfields, readAfter_bare])

/-- Settles O34: none of the six has a field. -/
theorem bareBuildsAreTheOpcodeAlone : Obligations.BareBuildsAreTheOpcodeAlone := fun _ =>
  ⟨bareBuild_buildsFrame rfl rfl, bareBuild_buildsFrame rfl rfl, bareBuild_buildsFrame rfl rfl,
    bareBuild_buildsFrame rfl rfl, bareBuild_buildsFrame rfl rfl, bareBuild_buildsFrame rfl rfl⟩

/-! ### The position commands, with the examples of their rules -/

/-- The count 2^31, one above the range, wraps to the lowest count or saturates to the greatest (R110, R111). -/
theorem reduceS_two_pow_31 (cfg : Config) : reduceS cfg 32 (2 ^ 31) =
    (match cfg.widthReduction with | .wrap => 0x80000000 | .saturate => 0x7FFFFFFF) := by
  unfold reduceS
  cases cfg.widthReduction <;> rfl

/-- Settles O31: the direction byte of the frame is its bit; 180 degrees are 18000 counts. -/
theorem buildA6EncodesThePosition : Obligations.BuildA6EncodesThePosition := by
  refine ⟨fun angle dir speed s => ?_, reduceS_two_pow_31, fun s => ?_⟩
  · cases dir <;> exact buildA6_buildsFrame angle _ speed s
  · have hspeed : reduceU s.cfg 16 30 = 30 := reduceU_natCast (by norm_num)
    have hscale : scale s.cfg 180 = 18000 := scale_of_mul_eq (by norm_num)
    have hcount : reduceS s.cfg 32 18000 = 18000 := reduceS_of_range (by norm_num) (by norm_num)
    have hframe := buildA6_buildsFrame 180 .clockwise 30 s
    rwa [hspeed, hscale, hcount] at hframe

/-- Settles O32: 0 degrees are 0 counts, and -90 degrees -9000. -/
theorem build95EncodesTheOffset : Obligations.Build95EncodesTheOffset := by
  refine ⟨build95_buildsFrame, reduceS_two_pow_31, fun s => ⟨?_, ?_⟩⟩
  · have hscale : scale s.cfg 0 = 0 := scale_of_mul_eq (by norm_num)
    have hcount : reduceS s.cfg 32 0 = 0 := reduceS_of_range (by norm_num) (by norm_num)
    have hframe := build95_buildsFrame 0 s
    rwa [hscale, hcount] at hframe
  · have hscale : scale s.cfg (-90) = -9000 := scale_of_mul_eq (by norm_num)
    have hcount : reduceS s.cfg 32 (-9000) = 4294958296 := reduceS_of_range (by norm_num) (by norm_num)
    have hframe := build95_buildsFrame (-90) s
    rwa [hscale, hcount] at hframe

/-- Settles O33: 10 degrees are 1000 counts, and CounterClockwise negates the count before it is reduced (D8). -/
theorem buildA8EncodesTheIncrement : Obligations.BuildA8EncodesTheIncrement := by
  refine ⟨fun angle dir speed s inc hinc => ?_, fun s => ?_⟩
  · subst hinc
    cases dir <;> exact buildA8_buildsFrame angle _ speed s
  · have hspeed : reduceU s.cfg 16 100 = 100 := reduceU_natCast (by norm_num)
    have hscale : scale s.cfg 10 = 1000 := scale_of_mul_eq (by norm_num)
    have hcount : reduceS s.cfg 32 1000 = 1000 := reduceS_of_range (by norm_num) (by norm_num)
    have hnegated : reduceS s.cfg 32 (-1000) = 4294966296 := reduceS_of_range (by norm_num) (by norm_num)
    constructor
    · have hframe := buildA8_buildsFrame 10 .counterClockwise 100 s
      rwa [hspeed, hscale, signedIncrement, hnegated] at hframe
    · have hframe := buildA8_buildsFrame 10 .clockwise 100 s
      rwa [hspeed, hscale, signedIncrement, hcount] at hframe

/-- Settles O38: the increments agree, since rounding is odd. -/
theorem directionFoldsIntoTheSign : Obligations.DirectionFoldsIntoTheSign := by
  intro angle speed s hmode
  simp only [exec_eq_complete, instrOutputs, signedIncrement, scale_neg hmode]

/-! ### A field of a built frame -/

/-- The bytes of a field hold its value when the fields written after it begin past its end. -/
theorem readAfter_field {f : FieldValue} {later : List FieldValue}
    (hlater : ∀ g ∈ later, f.field.offset + f.field.width ≤ g.field.offset) (earlier : List FieldValue) (b : Byte)
    {k : Nat} (hk : k < f.field.width) :
    readAfter (earlier ++ f :: later) b (f.field.offset + k) = byteAt f.value k := by
  rw [readAfter, List.foldl_append, List.foldl_cons, if_pos (by omega), Nat.add_sub_cancel_left]
  exact readAfter_of_lt (fun g hg => by have := hlater g hg; omega) _

/-- Such a field is read back from the frame when its value fits (R44, R155). -/
theorem commandField_of_readAfter {frame : Memory} {f : FieldValue} {earlier later : List FieldValue}
    (hread : ∀ c, Memory.read frame c = readAfter (earlier ++ f :: later) Memory.unlisted c)
    (hlater : ∀ g ∈ later, f.field.offset + f.field.width ≤ g.field.offset)
    (hinside : f.field.offset + f.field.width ≤ 8) (hfits : f.value < 256 ^ f.field.width) :
    commandField frame f.field = f.value := by
  have hvalue := memRead_bytes_of_byteAt hinside hfits fun k hk =>
    (hread _).trans (readAfter_field hlater earlier Memory.unlisted hk)
  rw [(memRead_delivered (by simpa [Memory.bytes] using hinside)).1] at hvalue
  exact Except.ok.inj hvalue

/-- A frame with the fields of CMD-POS or CMD-INC carries the reduced speed (R105, R155). -/
theorem cmdSpeed_of_build {i : Instr} (h : i.isParse = false) {s : State} {d count : Nat} {speed : Int}
    (hfields : buildFields s.cfg i =
      [⟨fieldDirection, d⟩, ⟨fieldCommandSpeed, speedBits s.cfg speed⟩, ⟨fieldCommandAngle, count⟩]) :
    ∃ f, Completes i s (Outputs.built f) ∧ cmdSpeed f = reduceU s.cfg 16 speed := by
  obtain ⟨frame, hcompletes, -, hread⟩ := completes_of_build h s
  rw [hfields] at hread
  exact ⟨frame, hcompletes,
    commandField_of_readAfter (f := ⟨fieldCommandSpeed, speedBits s.cfg speed⟩) (earlier := [_, _]) hread
      (by simp) (by simp) (reduceU_lt s.cfg 16 speed)⟩

/-- Settles O39: both frames carry the reduced speed, and the reduction keeps a value in range. -/
theorem speedIsCarriedUnchanged : Obligations.SpeedIsCarriedUnchanged := by
  intro angle dir speed s hlo hhi
  have hkept : (reduceU s.cfg 16 speed : Int) = speed := reduceU_of_range hlo (by omega)
  obtain ⟨f, hf, hfSpeed⟩ := cmdSpeed_of_build (i := .buildA6 angle dir speed) (s := s) rfl rfl
  obtain ⟨g, hg, hgSpeed⟩ := cmdSpeed_of_build (i := .buildA8 angle dir speed) (s := s) rfl rfl
  exact ⟨⟨f, hf, by rw [hfSpeed, hkept]⟩, g, hg, by rw [hgSpeed, hkept]⟩

end Sys2Proof.Machine

/-!
What the PARSE operations make of a reply (41_response_parser.md R140 to R156): the checks on a reply with a first byte, the
sign of a field in its most significant byte, and per operation the outputs of every reply that is long enough.
-/

namespace Sys2Proof.Machine

/-! ### The checks -/

/-- What the echo check makes of the outputs `o` of a reply with byte 0 `b0` (R142); `parseReply_cons` ties it to the
parser. -/
def echoChecked (cfg : Config) (op b0 : Byte) (o : Outputs) : Outputs :=
  if cfg.checkEcho = true ∧ b0 ≠ op then Outputs.malformed .echo else o

@[simp] theorem echoChecked_self (cfg : Config) (op : Byte) (o : Outputs) : echoChecked cfg op op o = o :=
  if_neg fun h => h.2 rfl

/-- A whole frame is long enough for every operation (R141). -/
theorem required_le_eight (cfg : Config) {covering : Nat} (h : covering ≤ 8) : required cfg covering ≤ 8 := by
  unfold required
  split
  · exact le_refl 8
  · exact h

/-- An operation that reads byte 7 needs the whole frame, with or without `REQUIRE_FULL_FRAME` (R141). -/
@[simp] theorem required_eight (cfg : Config) : required cfg 8 = 8 := ite_self 8

/-- A reply that is long enough is decided by its byte 0 under `CHECK_ECHO` and then by the fields (R141, R142). -/
theorem parseReply_cons {cfg : Config} {op b0 : Byte} {covering : Nat} {rest : List Byte}
    {fields : List Byte → Except Fault Outputs} (hpos : 1 ≤ covering) (h8 : covering ≤ 8)
    (hlen : required cfg covering ≤ rest.length + 1) :
    parseReply cfg op covering (some (b0 :: rest)) fields =
      if cfg.checkEcho = true ∧ b0 ≠ op then .ok (Outputs.malformed .echo) else fields (b0 :: rest) := by
  have hlong := parseReply_long cfg op covering fields (bytes := b0 :: rest)
    (hpos.trans (le_required cfg covering h8)) hlen
  have hbyte : leValue ((b0 :: rest).take 1) = b0.toNat := by simp [leValue]
  rw [hlong, hbyte]
  cases cfg.checkEcho
  · rfl
  · by_cases hop : b0 = op <;> simp [hop, BitVec.toNat_inj]

/-- Where the fields of such a reply answer, the echo check decides whether their answer stands. -/
theorem parseReply_read {cfg : Config} {op b0 : Byte} {covering : Nat} {rest : List Byte}
    {fields : List Byte → Except Fault Outputs} {o : Outputs} (hpos : 1 ≤ covering) (h8 : covering ≤ 8)
    (hlen : required cfg covering ≤ rest.length + 1) (ho : fields (b0 :: rest) = .ok o) :
    parseReply cfg op covering (some (b0 :: rest)) fields = .ok (echoChecked cfg op b0 o) := by
  rw [parseReply_cons hpos h8 hlen, ho, echoChecked, apply_ite Except.ok]

/-- Under `CHECK_ECHO` a whole frame whose byte 0 is not the opcode is MALFORMED Echo (R142). -/
theorem parseReply_mismatch {cfg : Config} {op b0 : Byte} {covering : Nat} {rest : List Byte}
    {fields : List Byte → Except Fault Outputs} (hpos : 1 ≤ covering) (h8 : covering ≤ 8) (hlen : rest.length = 7)
    (hcheck : cfg.checkEcho = true) (hne : b0 ≠ op) :
    parseReply cfg op covering (some (b0 :: rest)) fields = .ok (Outputs.malformed .echo) := by
  rw [parseReply_cons hpos h8 (hlen ▸ required_le_eight cfg h8), if_pos ⟨hcheck, hne⟩]

/-- A reply whose byte 0 is the opcode passes the echo check, whatever `CHECK_ECHO` is (R142). -/
theorem completes_of_echo {i : Instr} {s : State} {op : Byte} {o : Outputs}
    (h : instrOutputs s.cfg i = .ok (echoChecked s.cfg op op o)) : Completes i s o :=
  completes_of_instrOutputs (h.trans (congrArg Except.ok (echoChecked_self s.cfg op o)))

/-! ### The fields -/

theorem memRead_eq {bytes : List Byte} {f : Field} (h : f.offset + f.width ≤ bytes.length) :
    memRead bytes f = .ok (leValue ((bytes.drop f.offset).take f.width)) :=
  (memRead_delivered h).1

theorem signedField_eq {bytes : List Byte} {f : Field} (h : f.offset + f.width ≤ bytes.length) :
    signedField bytes f = .ok (sext (8 * f.width) (leValue ((bytes.drop f.offset).take f.width))) := by
  rw [signedField, memRead_eq h]
  rfl

/-- The most significant byte stands last. -/
theorem leValue_concat (bs : List Byte) (top : Byte) :
    leValue (bs ++ [top]) = leValue bs + 256 ^ bs.length * top.toNat := by
  induction bs with
  | nil => simp [leValue]
  | cons b bs ih =>
    rw [List.cons_append, leValue, leValue, ih, List.length_cons, pow_succ']
    ring

/-- The sign of a little-endian value is bit 7 of its most significant byte (R143). -/
theorem sext_leValue_concat (bs : List Byte) (top : Byte) :
    sext (8 * (bs.length + 1)) (leValue (bs ++ [top])) =
      if top.toNat < 0x80 then (leValue (bs ++ [top]) : Int)
      else leValue (bs ++ [top]) - 2 ^ (8 * (bs.length + 1)) := by
  have hhalf : 2 ^ (8 * (bs.length + 1) - 1) = 256 ^ bs.length * 0x80 := by
    rw [show 8 * (bs.length + 1) - 1 = 8 * bs.length + 7 by omega, pow_add, pow_mul]
    norm_num
  have hlow := leValue_lt bs
  have hsign : leValue (bs ++ [top]) < 256 ^ bs.length * 0x80 ↔ top.toNat < 0x80 := by
    rw [leValue_concat]
    constructor
    · intro h
      exact Nat.lt_of_mul_lt_mul_left (lt_of_le_of_lt (Nat.le_add_left _ _) h)
    · intro h
      calc leValue bs + 256 ^ bs.length * top.toNat
          < 256 ^ bs.length * (top.toNat + 1) := by rw [Nat.mul_succ]; omega
        _ ≤ 256 ^ bs.length * 0x80 := Nat.mul_le_mul_left _ h
  simp only [sext, hhalf, hsign]

/-- The signed value of two bytes, as the status replies carry it (R143). -/
theorem sext_leValue_two (low top : Byte) {raw v : Int} (hraw : raw = low.toNat + 256 * top.toNat)
    (hv : v = if top.toNat < 0x80 then raw else raw - 2 ^ 16) : sext 16 (leValue [low, top]) = v := by
  have hvalue : raw = leValue [low, top] := by simp [hraw, leValue]
  rw [hv, hvalue]
  exact sext_leValue_concat [low] top

/-- A signed value is recovered from its little-endian bytes (R156). -/
theorem sext_leValue_wrap {n : Nat} {c : Int} (hn : 0 < n) (hlo : -2 ^ (8 * n - 1) ≤ c) (hhi : c < 2 ^ (8 * n - 1)) :
    sext (8 * n) (leValue ((List.range n).map (byteAt (wrap (8 * n) c)))) = c := by
  have hfits : wrap (8 * n) c < 256 ^ n := (wrap_lt (8 * n) c).trans_eq (pow_mul 2 8 n)
  rw [leValue_map_byteAt, Nat.mod_eq_of_lt hfits, sext_wrap_of_range (by omega) hlo hhi]

/-- A present reply of a byte or more is acknowledged (R154). -/
@[simp] theorem acknowledged_cons (b : Byte) (rest : List Byte) : acknowledged (some (b :: rest)) = true := by
  simp [acknowledged]

/-- The power flag is the agreement of `POWER_ON_WHEN_ZERO` with a zero power byte (R152, C1). -/
theorem powerFlag_eq_decide (cfg : Config) (power : Byte) :
    powerFlag cfg power = decide (cfg.powerOnWhenZero = true ↔ power = 0x00) := by
  unfold powerFlag
  cases cfg.powerOnWhenZero
  · simp [bne, beq_eq_decide]
  · simp [beq_eq_decide]

/-! ### The outputs of each operation on a reply that is long enough -/

section
variable (cfg : Config) (b0 : Byte)

/-- PARSE.92 of 8 bytes: the count is the signed value of bytes 1 to 7 (R150). -/
theorem outParse92_full {rest : List Byte} (h : rest.length = 7) :
    outParse92 cfg (some (b0 :: rest)) =
      .ok (echoChecked cfg 0x92 b0 (Outputs.multiTurn (sext 56 (leValue rest)))) := by
  refine parseReply_read (by decide) (by decide) (by simp [h]) ?_
  rw [signedField_eq (by simp [h])]
  have hall : rest.take 7 = rest := List.take_of_length_le h.le
  simp [hall, bind, Except.bind]

/-- PARSE.94 of 8 bytes: the count is the unsigned value of bytes 4 to 7 (R151). -/
theorem outParse94_full (b1 b2 b3 b4 b5 b6 b7 : Byte) :
    outParse94 cfg (some [b0, b1, b2, b3, b4, b5, b6, b7]) =
      .ok (echoChecked cfg 0x94 b0 (Outputs.singleTurn (leValue [b4, b5, b6, b7]))) :=
  parseReply_read (by decide) (by decide) (by simp) rfl

/-- PARSE.9A of 7 bytes or more reads bytes 1, 2, 3 and 6 (R152). -/
theorem outParse9A_long (b1 b2 b3 b4 b5 b6 : Byte) {rest : List Byte} (h : required cfg 7 ≤ rest.length + 7) :
    outParse9A cfg (some ([b0, b1, b2, b3, b4, b5, b6] ++ rest)) =
      .ok (echoChecked cfg 0x9A b0
        (Outputs.status1 b1.toNat (sext 16 (leValue [b2, b3])) b6 (powerFlag cfg b6))) := by
  refine parseReply_read (by decide) (by decide) h ?_
  rw [memRead_eq (by simp), signedField_eq (by simp), memRead_eq (by simp)]
  simp [leValue, bind, Except.bind]

/-- PARSE.9C of 6 bytes or more reads bytes 4 and 5 (R153). -/
theorem outParse9C_long (b1 b2 b3 b4 b5 : Byte) {rest : List Byte} (h : required cfg 6 ≤ rest.length + 6) :
    outParse9C cfg (some ([b0, b1, b2, b3, b4, b5] ++ rest)) =
      .ok (echoChecked cfg 0x9C b0 (Outputs.status2 (sext 16 (leValue [b4, b5])))) := by
  refine parseReply_read (by decide) (by decide) h ?_
  rw [signedField_eq (by simp)]
  simp [bind, Except.bind]

end

/-- A reply passes the length check with the bytes the operation reads, or where `REQUIRE_FULL_FRAME` asks for more with a
whole frame (R141, D11). -/
theorem required_le_of_full {cfg : Config} {covering extra : Nat}
    (h : cfg.requireFullFrame = false ∨ 8 ≤ extra + covering) : required cfg covering ≤ extra + covering := by
  unfold required
  split
  · next hfull => exact h.resolve_left (by simp [hfull])
  · exact Nat.le_add_left _ _

/-! ### The rules of the operations -/

/-- Settles O40: the sign of the 56-bit value is that of byte 7. -/
theorem parse92RecoversTheMultiTurnAngle : Obligations.Parse92RecoversTheMultiTurnAngle := by
  intro s
  refine ⟨exec_absent (by simp) s, fun bytes h => completes_of_instrOutputs
    (show outParse92 s.cfg (some bytes) = _ from parseReply_short _ _ _ _ (by simpa using h)), ?_, ?_⟩
  · intro b0 b1 b2 b3 b4 b5 b6 b7 raw count hraw hcount
    have hvalue : raw = leValue [b1, b2, b3, b4, b5, b6, b7] := by
      rw [hraw]
      simp only [leValue]
      push_cast
      ring
    have hsigned : sext 56 (leValue [b1, b2, b3, b4, b5, b6, b7]) = count := by
      rw [hcount, hvalue]
      exact sext_leValue_concat [b1, b2, b3, b4, b5, b6] b7
    have hfits : leValue [b1, b2, b3, b4, b5, b6, b7] < 2 ^ 56 := (leValue_lt _).trans_eq (by norm_num)
    obtain ⟨hlo, hhi⟩ := sext_range (by decide) hfits
    rw [hsigned] at hlo hhi
    have hread := outParse92_full s.cfg b0 (rest := [b1, b2, b3, b4, b5, b6, b7]) rfl
    rw [hsigned] at hread
    exact ⟨hlo, by omega, completes_of_instrOutputs hread⟩
  · exact completes_of_echo (outParse92_full s.cfg 0x92 (rest := [0xFF, 0xFF, 0xFF, 0xFF, 0xFF, 0xFF, 0xFF]) rfl)

/-- Settles O41: the value of bytes 4 to 7 stands as it is read (D26). -/
theorem parse94ReadsTheSingleTurnAngle : Obligations.Parse94ReadsTheSingleTurnAngle := by
  intro s
  refine ⟨exec_absent (by simp) s, fun bytes h => completes_of_instrOutputs
    (show outParse94 s.cfg (some bytes) = _ from parseReply_short _ _ _ _ (by simpa using h)), ?_, ?_⟩
  · intro b0 b1 b2 b3 b4 b5 b6 b7 count hcount
    have hvalue : leValue [b4, b5, b6, b7] = count := by
      rw [hcount]
      simp only [leValue]
      ring
    have hread := outParse94_full s.cfg b0 b1 b2 b3 b4 b5 b6 b7
    rw [hvalue] at hread
    exact completes_of_instrOutputs hread
  · have hdegrees : (9000 : Rat) / 100 = 90 := by norm_num
    rw [← hdegrees]
    exact completes_of_echo (outParse94_full s.cfg 0x94 0x00 0x00 0x00 0x28 0x23 0x00 0x00)

/-- Settles O42: 7 bytes are enough unless the whole frame is required; the flag is an agreement (D13). -/
theorem parse9AReadsStatus1 : Obligations.Parse9AReadsStatus1 := by
  intro s
  refine ⟨exec_absent (by simp) s, fun bytes h => completes_of_instrOutputs
    (show outParse9A s.cfg (some bytes) = _ from parseReply_short _ _ _ _ h), ?_⟩
  intro b0 b1 b2 b3 b4 b5 b6 rest raw volt hlen hraw hvolt
  have hread := outParse9A_long s.cfg b0 b1 b2 b3 b4 b5 b6 (rest := rest)
    (required_le_of_full (hlen.imp_right fun h => by omega))
  rw [sext_leValue_two b2 b3 hraw hvolt, powerFlag_eq_decide] at hread
  exact completes_of_instrOutputs hread

/-- Settles O43: 6 bytes are enough unless the whole frame is required. -/
theorem parse9CReadsTheSpeed : Obligations.Parse9CReadsTheSpeed := by
  intro s
  have hexample (low top : Byte) : Completes (.parse9C (some [0x9C, 0x00, 0x00, 0x00, low, top, 0x00, 0x00])) s
      (Outputs.status2 (sext 16 (leValue [low, top]))) :=
    completes_of_echo (outParse9C_long s.cfg 0x9C 0x00 0x00 0x00 low top (rest := [0x00, 0x00])
      (required_le_eight s.cfg (by decide)))
  refine ⟨exec_absent (by simp) s, fun bytes h => completes_of_instrOutputs
    (show outParse9C s.cfg (some bytes) = _ from parseReply_short _ _ _ _ h), ?_,
    hexample 0xFF 0xFF, hexample 0x00 0x80, hexample 0xD4 0xFE⟩
  intro b0 b1 b2 b3 b4 b5 rest raw speed hlen hraw hspeed
  have hread := outParse9C_long s.cfg b0 b1 b2 b3 b4 b5 (rest := rest)
    (required_le_of_full (hlen.imp_right fun h => by omega))
  rw [sext_leValue_two b4 b5 hraw hspeed] at hread
  exact completes_of_instrOutputs hread

/-- Settles O44: the presence of a byte is all that PARSE.95 looks at (D17). -/
theorem parse95ReportsPresence : Obligations.Parse95ReportsPresence :=
  fun _ => ⟨completes_of_instrOutputs rfl, completes_of_instrOutputs rfl, fun b rest =>
    completes_of_instrOutputs (congrArg (Except.ok ∘ Outputs.presence) (acknowledged_cons b rest))⟩

/-- Settles O45: the bytes of a count give the count back, and byte 0 echoes the opcode. -/
theorem signedCountsAreRecovered : Obligations.SignedCountsAreRecovered := by
  have hrecover {c : Int} (hlo : -32768 ≤ c) (hhi : c ≤ 32767) :
      sext 16 (leValue [byteAt (wrap 16 c) 0, byteAt (wrap 16 c) 1]) = c :=
    sext_leValue_wrap (n := 2) (by decide) (by norm_num; omega) (by norm_num; omega)
  intro s
  refine ⟨fun c hlo hhi => ?_, fun c t x y p z hlo hhi => ⟨powerFlag s.cfg p, ?_⟩, fun c x y z u v hlo hhi => ?_⟩
  · have hread := outParse92_full s.cfg 0x92 (rest := (List.range 7).map (byteAt (wrap 56 c))) rfl
    rw [sext_leValue_wrap (n := 7) (by decide) hlo (by omega)] at hread
    exact completes_of_echo hread
  · have hread := outParse9A_long s.cfg 0x9A t (byteAt (wrap 16 c) 0) (byteAt (wrap 16 c) 1) x y p (rest := [z])
      (required_le_eight s.cfg (by decide))
    rw [hrecover hlo hhi] at hread
    exact completes_of_echo hread
  · have hread := outParse9C_long s.cfg 0x9C x y z (byteAt (wrap 16 c) 0) (byteAt (wrap 16 c) 1) (rest := [u, v])
      (required_le_eight s.cfg (by decide))
    rw [hrecover hlo hhi] at hread
    exact completes_of_echo hread

/-- Settles O46: the sign extension takes 2^56 away exactly when bit 7 of byte 7 is set. -/
theorem zeroExtensionDiffersExactlyWhenNegative : Obligations.ZeroExtensionDiffersExactlyWhenNegative := by
  intro s b1 b2 b3 b4 b5 b6 b7
  have hsigned : sext 56 (leValue [b1, b2, b3, b4, b5, b6, b7]) = _ := sext_leValue_concat [b1, b2, b3, b4, b5, b6] b7
  refine ⟨_, completes_of_echo (outParse92_full s.cfg 0x92 (rest := [b1, b2, b3, b4, b5, b6, b7]) rfl), ?_⟩
  rw [hsigned]
  by_cases htop : b7.toNat < 0x80
  · simp [htop]
  · simp [htop]

/-! ### Byte 0 -/

/-- Without `CHECK_ECHO` two replies that differ in byte 0 agree on every field past byte 0 (R142). -/
theorem agreeReply_of_byte_zero {cfg : Config} (hcheck : cfg.checkEcho = false) (b b' : Byte) (rest : List Byte)
    {named : List Field} (hnamed : ∀ f ∈ named, 1 ≤ f.offset) :
    (presentReply 0 (some (b :: rest))).agreeReply cfg (presentReply 0 (some (b' :: rest))) named := by
  refine ⟨rfl, fun _ => ⟨rfl, by simp [hcheck], fun f hf k hk _ _ => ?_⟩⟩
  obtain ⟨j, rfl⟩ := Nat.exists_eq_add_of_le' ((hnamed f hf).trans hk)
  simp [presentReply]

/-- Settles O47: byte 0 stands in no field that a PARSE reads, and the echo check comes before the fields. -/
theorem echoCheckDecidesMismatches : Obligations.EchoCheckDecidesMismatches := by
  intro s b0 b0' rest hlen
  constructor
  · intro hcheck
    have hreply (b : Byte) : (presentReply 0 (some (b :: rest))).reply = some (b :: rest) :=
      presentReply_reply 0 (by simp [Reply.wf, hlen])
    have hagree {named : List Field} := agreeReply_of_byte_zero hcheck b0 b0' rest (named := named)
    have h92 := outParse92_agree (hagree (by simp))
    have h94 := outParse94_agree (hagree (by simp))
    have h9A := outParse9A_agree (hagree (by simp))
    have h9C := outParse9C_agree (hagree (by simp))
    rw [hreply, hreply] at h92 h94 h9A h9C
    exact ⟨congrArg s.complete h92, congrArg s.complete h94, congrArg s.complete h9A, congrArg s.complete h9C⟩
  · intro hcheck
    refine ⟨fun hne => completes_of_instrOutputs (show outParse92 s.cfg _ = _ from ?_),
      fun hne => completes_of_instrOutputs (show outParse94 s.cfg _ = _ from ?_),
      fun hne => completes_of_instrOutputs (show outParse9A s.cfg _ = _ from ?_),
      fun hne => completes_of_instrOutputs (show outParse9C s.cfg _ = _ from ?_)⟩
    all_goals exact parseReply_mismatch (by decide) (by decide) hlen hcheck hne

end Sys2Proof.Machine

/-!
The angle field of a built frame (41_response_parser.md R155): it is written last, so it reads back the count that the
builder put there, and on the grid of 0.01 degree that count is the operand's.
-/

namespace Sys2Proof.Machine

/-- The angle field written last reads back its count when the count is in range (R103, R155). -/
theorem cmdAngleCnt_of_readAfter {frame : Memory} {cfg : Config} {count : Int} {earlier : List FieldValue}
    (hread : ∀ c, Memory.read frame c =
      readAfter (earlier ++ [⟨fieldCommandAngle, countBits cfg count⟩]) Memory.unlisted c)
    (hlo : -2 ^ 31 ≤ count) (hhi : count ≤ 2 ^ 31 - 1) : cmdAngleCnt frame = count := by
  have hbits : countBits cfg count = wrap 32 count := reduceS_of_range hlo hhi
  have hfield := commandField_of_readAfter hread (by simp) (by simp) (reduceS_lt cfg 32 count)
  rw [cmdAngleCnt, hfield]
  exact (congrArg (sext 32) hbits).trans (sext_wrap_of_range (by decide) hlo (by omega))

/-- Settles O36: the count of a grid angle is its integer; the fields of CMD-POS follow one another. -/
theorem commandAngleRoundTrip : Obligations.CommandAngleRoundTrip := by
  intro k dir speed s hlo hhi
  have hscale : scale s.cfg ((k : Rat) / 100) = k := gridAnglesAreExact s.cfg k
  constructor
  · obtain ⟨f, hcompletes, -, hread⟩ := completes_of_build (i := .buildA6 ((k : Rat) / 100) dir speed) rfl s
    have hcount := cmdAngleCnt_of_readAfter (earlier := [_, _, _]) hread (hscale.symm ▸ hlo) (hscale.symm ▸ hhi)
    refine ⟨f, hcompletes, by rw [cmdAngle, hcount, hscale, angleScale], ?_, ?_⟩
    · exact commandField_of_readAfter (f := ⟨fieldCommandSpeed, speedBits s.cfg speed⟩) (earlier := [_, _]) hread
        (by simp) (by simp) (reduceU_lt s.cfg 16 speed)
    · exact commandField_of_readAfter (f := ⟨fieldDirection, directionBits dir⟩) (earlier := [_]) hread
        (by simp) (by simp) (by cases dir <;> decide)
  · obtain ⟨f, hcompletes, -, hread⟩ := completes_of_build (i := .build95 ((k : Rat) / 100)) rfl s
    have hcount := cmdAngleCnt_of_readAfter (earlier := [_]) hread (hscale.symm ▸ hlo) (hscale.symm ▸ hhi)
    exact ⟨f, hcompletes, by rw [cmdAngle, hcount, hscale, angleScale]⟩

/-- BUILD.A8 reads back the increment with its sign (R112, R155). -/
theorem cmdAngleCnt_buildA8 (angle : Rat) (dir : RotationDirection) (speed : Int) (s : State) {increment : Int}
    (hincrement : signedIncrement dir (scale s.cfg angle) = increment) (hlo : -2 ^ 31 ≤ increment)
    (hhi : increment ≤ 2 ^ 31 - 1) :
    ∃ f, Completes (.buildA8 angle dir speed) s (Outputs.built f) ∧ cmdAngleCnt f = increment := by
  subst hincrement
  obtain ⟨f, hcompletes, -, hread⟩ := completes_of_build (i := .buildA8 angle dir speed) rfl s
  exact ⟨f, hcompletes, cmdAngleCnt_of_readAfter (earlier := [_, _, _]) hread hlo hhi⟩

/-- Settles O37: the negated count of CounterClockwise is in range too, since `k` is not the lowest count. -/
theorem incrementReadsBackSigned : Obligations.IncrementReadsBackSigned := by
  intro k speed s hlo hhi
  have hscale : scale s.cfg ((k : Rat) / 100) = k := gridAnglesAreExact s.cfg k
  exact ⟨cmdAngleCnt_buildA8 _ .clockwise speed s hscale hlo.le hhi,
    cmdAngleCnt_buildA8 _ .counterClockwise speed s (congrArg Neg.neg hscale) (by omega) (by omega)⟩

end Sys2Proof.Machine

/-!
How an operation ends: one status and, with MALFORMED only, a reason (60_exceptions.md R200 to R204), and their codes.
-/

namespace Sys2Proof.Machine

/-! ### A select word outside the table -/

theorem decode_error_of_not_mem_tableSelects {o : Operation} (h : o.sel ∉ tableSelects) : ∃ e, decode o = .error e := by
  obtain ⟨-, -, hdecodes⟩ := selectTableIsExact
  cases hdecode : decode o with
  | ok i => exact absurd ((hdecodes o).mp ⟨i, hdecode⟩) h
  | error e => exact ⟨e, rfl⟩

/-- Settles O7: a select word outside the table decodes to no operation, and such a presentation is refused. -/
theorem unlistedSelectIsRefused : Obligations.UnlistedSelectIsRefused := by
  intro s o rest hpending hrun hsel
  obtain ⟨e, hdecode⟩ := decode_error_of_not_mem_tableSelects hsel
  rw [step_of_decode_error hpending hrun hdecode, State.refuse, State.finish, hpending]
  rfl

/-! ### The status of an operation that is performed -/

/-- An operation answers OK without a reason, or it is a checked PARSE and answers MALFORMED (R200, R202, R203). -/
theorem IsAnswer.ok_or_malformed {cfg : Config} {i : Instr} {o : Outputs} (h : IsAnswer cfg i o) :
    (o.status = some .ok ∧ o.reason = none) ∨
      ((∃ r, o = Outputs.malformed r) ∧ i.isParse = true ∧ ∀ reply, i ≠ .parse95 reply) := by
  cases i with
  | parse92 _ | parse94 _ | parse9C _ =>
    obtain ⟨r, rfl, -⟩ | ⟨v, rfl, -⟩ := h
    · exact .inr ⟨⟨r, rfl⟩, rfl, by simp⟩
    · exact .inl ⟨rfl, rfl⟩
  | parse9A _ =>
    obtain ⟨r, rfl, -⟩ | ⟨t, v, p, rfl, -⟩ := h
    · exact .inr ⟨⟨r, rfl⟩, rfl, by simp⟩
    · exact .inl ⟨rfl, rfl⟩
  | parse95 _ => exact .inl (h ▸ ⟨rfl, rfl⟩)
  | buildA6 | build95 | buildA8 | build92 | build94 | build9A | build9C | build80 | build88 =>
    obtain ⟨frame, rfl, -⟩ := h
    exact .inl ⟨rfl, rfl⟩

/-- Settles O13: the answer is OK without a reason, or the MALFORMED outputs of a checked PARSE. -/
theorem everyOperationHasOneStatus : Obligations.EveryOperationHasOneStatus := by
  intro i s s' h
  obtain ⟨o, hans, rfl⟩ := exec_eq_next h
  rw [State.finish_out]
  obtain ⟨hstatus, hreason⟩ | ⟨⟨r, rfl⟩, hparse, hchecked⟩ := hans.ok_or_malformed
  · exact ⟨.inl hstatus, fun _ => hreason, by simp [hstatus], fun _ => hstatus, fun _ _ => hstatus⟩
  · exact ⟨.inr rfl, by simp [Outputs.malformed], fun _ => ⟨r, rfl⟩, by simp [hparse],
      fun reply hi => absurd hi (hchecked reply)⟩

/-! ### The codes -/

theorem statusCode_ne_three (st : Status) : statusCode st ≠ 3 := by
  cases st <;> decide

/-- Settles O49: each code as R200 and R202 list it, and no status has code 3. -/
theorem statusAndReasonCodes : Obligations.StatusAndReasonCodes :=
  ⟨rfl, rfl, rfl, statusCode_ne_three, rfl, rfl, rfl⟩

end Sys2Proof.Machine

/-!
Reset and the run (70_reset_and_hazards.md R240, R249): a reset changes nothing that an operation or a step gives, and a
run performs the host's whole list and then ends.
-/

namespace Sys2Proof.Machine

/-! ### A run over a list of written operations -/

/-- With nothing presented the run has ended (R249). -/
theorem step_of_pending_nil {s : State} (hpending : s.pending = []) : step s = .fault .runEnded := by
  simp only [step, fetch_nil s hpending]

/-- In a run that has a meaning, the step at the presentation of a well-formed operation is `exec` of that operation. -/
theorem step_of_encode {s : State} {i : Instr} {rest : List Operation} (hwf : i.wf = true)
    (hrun : s.run = .meaningful) (hpending : s.pending = encode i :: rest) : step s = exec i s :=
  stepRunsDecodedOperation s (encode i) rest i hpending hrun (decodeEncodeAgree i hwf)

/-- A run takes a step that answers, and goes on from its state. -/
theorem run_succ_of_step_eq_next {M : Host.Core} {s s' : M.State} (h : M.step s = .next s') (k : Nat) :
    M.run (k + 1) s = M.run k s' := by
  simp only [Host.Core.run, h]

/-! The state after operations that end with the outputs `outs`, one after the other (R24, R249). -/

@[simp] theorem foldl_finish_cfg (s : State) (outs : List Outputs) : (outs.foldl State.finish s).cfg = s.cfg := by
  induction outs generalizing s with
  | nil => rfl
  | cons o outs ih => simp [ih]

@[simp] theorem foldl_finish_pending (s : State) (outs : List Outputs) :
    (outs.foldl State.finish s).pending = s.pending.drop outs.length := by
  induction outs generalizing s with
  | nil => rfl
  | cons o outs ih => simp [ih]

@[simp] theorem foldl_finish_index (s : State) (outs : List Outputs) :
    (outs.foldl State.finish s).index = s.index + outs.length := by
  induction outs generalizing s with
  | nil => rfl
  | cons o outs ih => simp [ih, Nat.add_assoc, Nat.add_comm 1]

@[simp] theorem foldl_finish_trace (s : State) (outs : List Outputs) :
    (outs.foldl State.finish s).trace = s.trace ++ outs := by
  induction outs generalizing s with
  | nil => simp
  | cons o outs ih => simp [ih]

/-- Where each operation `i` completes with outputs `f i` in every state of the configuration, the run over a list of
well-formed operations ends them all, in order. -/
theorem core_run_encodings {f : Instr → Outputs} {is : List Instr} {s : State}
    (hexec : ∀ (i : Instr) (u : State), u.cfg = s.cfg → exec i u = .next (u.finish (f i)))
    (hwf : ∀ i ∈ is, i.wf = true) (hrun : s.run = .meaningful) (hpending : s.pending = is.map encode) :
    core.run is.length s = .next ((is.map f).foldl State.finish s : State) := by
  induction is generalizing s with
  | nil => rfl
  | cons i is ih =>
    obtain ⟨hi, his⟩ := List.forall_mem_cons.mp hwf
    have hstep : step s = .next (s.finish (f i)) := (step_of_encode hi hrun hpending).trans (hexec i s rfl)
    exact (run_succ_of_step_eq_next (M := core) hstep is.length).trans (ih hexec his hrun (by simp [hpending]))

/-- Settles O11: the outputs of each operation are chosen for the configuration, once for all states, and the run
records them in the order of the list. -/
theorem runPerformsTheWholeList : Obligations.RunPerformsTheWholeList := by
  intro s is hwf hrun hpending
  choose f _ hexec using exec_completes s.cfg
  have hdone : ((is.map f).foldl State.finish s).pending = [] := by simp [hpending]
  refine ⟨is.map f, (is.map f).foldl State.finish s, core_run_encodings hexec hwf hrun hpending,
    by simp, by simp, by simp, hdone, by simp, ?_, step_of_pending_nil hdone⟩
  intro k i o hi ho
  obtain rfl : f i = o := by simpa [hi] using ho
  exact hexec i

/-! ### A reset in the middle of a run -/

@[simp] theorem State.afterReset_finish (s : State) (o : Outputs) : s.afterReset.finish o = s.finish o := rfl

@[simp] theorem State.afterReset_refuse (s : State) : s.afterReset.refuse = s.refuse := rfl

@[simp] theorem fetch_afterReset (s : State) : fetch s.afterReset = fetch s := rfl

/-- An operation reads the configuration, and all the output ports are written anew when it ends (R25, R240). -/
theorem exec_afterReset (i : Instr) (s : State) : exec i s.afterReset = exec i s := by
  obtain ⟨o, -, hexec⟩ := exec_completes s.cfg i
  rw [hexec s.afterReset rfl, hexec s rfl, State.afterReset_finish]

/-- Settles O4: the step fetches and decodes the same presentation, and performs or refuses it alike. -/
theorem resetIsUnobservable : Obligations.ResetIsUnobservable := by
  intro s
  have hstep : step s.afterReset = step s := by
    simp only [step, fetch_afterReset, exec_afterReset, State.afterReset_refuse]
  exact ⟨rfl, hstep, fun i => exec_afterReset i s⟩

/-! ### Where a run stops -/

/-- Settles O8: an exhausted list and a run without a meaning are the two stops of `fetch`. -/
theorem runStopsAtItsEndOrWithoutMeaning : Obligations.RunStopsAtItsEndOrWithoutMeaning :=
  ⟨fun _ => step_of_pending_nil, fun _ _ _ => step_of_withoutMeaning⟩

end Sys2Proof.Machine
